-- ==== Sys2Proof/Word.lean ====
section
/-! DEFINITION. The word of the CA-One core: one unsigned byte (00_scope.md R7, R8). -/

namespace Sys2Proof

/-- An unsigned byte, 0..255. Every register, memory cell, operand, `pc` and `cur` is one
(10_state.md R34). -/
abbrev Byte := BitVec 8

end Sys2Proof
end

