-- ==== Sys2Proof/Syntax.lean ====
section
/-! DEFINITION. The instruction set CA1-ISA as syntax: 24 mnemonics, their formats, and one constructor
of `Instr` for each row of the opcode table (30_encoding.md R71, R74). -/

namespace Sys2Proof

/-- The 24 mnemonics, in the order of the source's table (30_encoding.md R74). -/
inductive Mnemonic where
  | halt | init | set | save
  | add | sub | mul | div | inc | dec
  | prn | pra
  | push | pop | call | ret
  | ld | st | ldri | stri
  | jmp | cmp | jeq | jne
deriving DecidableEq, Repr

/-- All mnemonics, in table order. -/
def Mnemonic.all : List Mnemonic :=
  [.halt, .init, .set, .save, .add, .sub, .mul, .div, .inc, .dec, .prn, .pra] ++
  [.push, .pop, .call, .ret, .ld, .st, .ldri, .stri, .jmp, .cmp, .jeq, .jne]

/-- The seven instruction formats (30_encoding.md R71). -/
inductive Format where
  /-- the opcode byte alone -/
  | F1
  /-- the opcode byte; the next byte is read as a register index but not skipped -/
  | F1R
  /-- opcode and immediate -/
  | F2I
  /-- opcode and memory address -/
  | F2A
  /-- opcode and register index -/
  | F2R
  /-- opcode and a skipped byte, never read -/
  | F2S
  /-- opcode and two register indices -/
  | F3RR
deriving DecidableEq, Repr

/-- An instruction with the operand bytes its rule reads. Every operand is a whole byte, and every
byte is a valid operand (30_encoding.md R72, R76), so every term of this type is well formed. -/
inductive Instr where
  /-- HALT, 41_control_select.md R110 -/
  | halt
  /-- INIT, R111 -/
  | init
  /-- SET imm, R112 -/
  | set (imm : Byte)
  /-- SAVE imm, R113 -/
  | save (imm : Byte)
  /-- ADD r0 r1, 42_arithmetic.md R121 -/
  | add (r0 r1 : Byte)
  /-- SUB r0 r1, R122 -/
  | sub (r0 r1 : Byte)
  /-- MUL r0 r1, R123 -/
  | mul (r0 r1 : Byte)
  /-- DIV r0 r1, R124 -/
  | div (r0 r1 : Byte)
  /-- INC; `r` is the byte after the opcode, also the next opcode (R125, D27) -/
  | inc (r : Byte)
  /-- DEC; `r` as for INC (R126) -/
  | dec (r : Byte)
  /-- PRN, 43_output.md R141 -/
  | prn
  /-- PRA, R142 -/
  | pra
  /-- PUSH, 44_stack.md R152 -/
  | push
  /-- POP, R153 -/
  | pop
  /-- CALL, R154 -/
  | call
  /-- RET, R155 -/
  | ret
  /-- LD addr, 45_memory_access.md R170 -/
  | ld (addr : Byte)
  /-- ST addr, R171 -/
  | st (addr : Byte)
  /-- LDRI, R172: the register index is the number `pc + 1`, the second byte is never read -/
  | ldri
  /-- STRI, R173: as LDRI -/
  | stri
  /-- JMP, 46_compare_branch.md R180 -/
  | jmp
  /-- CMP r, R181 -/
  | cmp (r : Byte)
  /-- JEQ addr, R182 -/
  | jeq (addr : Byte)
  /-- JNE addr, R183 -/
  | jne (addr : Byte)
deriving DecidableEq, Repr

/-- The mnemonic of an instruction. -/
def Instr.mnemonic : Instr → Mnemonic
  | .halt => .halt
  | .init => .init
  | .set _ => .set
  | .save _ => .save
  | .add _ _ => .add
  | .sub _ _ => .sub
  | .mul _ _ => .mul
  | .div _ _ => .div
  | .inc _ => .inc
  | .dec _ => .dec
  | .prn => .prn
  | .pra => .pra
  | .push => .push
  | .pop => .pop
  | .call => .call
  | .ret => .ret
  | .ld _ => .ld
  | .st _ => .st
  | .ldri => .ldri
  | .stri => .stri
  | .jmp => .jmp
  | .cmp _ => .cmp
  | .jeq _ => .jeq
  | .jne _ => .jne

end Sys2Proof
end

