-- ==== Sys2Proof/Config.lean ====
section
/-! DEFINITION. The model parameters of the core (00_scope.md R6): `OPC`, `POP_ADJUSTS_SP` and
`UNSET_FLAG`. Their default values are in Decode.lean. The memory and register sizes are fixed (R6). -/

namespace Sys2Proof

/-- The parameter `OPC` as data: the opcode byte of each mnemonic (30_encoding.md R74, D1). Any map is
a term; the maps of the spec are the injective ones, `OpcodeMap.wf` (R75). -/
structure OpcodeMap where
  halt : Byte
  init : Byte
  set  : Byte
  save : Byte
  add  : Byte
  sub  : Byte
  mul  : Byte
  div  : Byte
  inc  : Byte
  dec  : Byte
  prn  : Byte
  pra  : Byte
  push : Byte
  pop  : Byte
  call : Byte
  ret  : Byte
  ld   : Byte
  st   : Byte
  ldri : Byte
  stri : Byte
  jmp  : Byte
  cmp  : Byte
  jeq  : Byte
  jne  : Byte
deriving DecidableEq, Repr

/-- `OPC(M)`. -/
def OpcodeMap.byteOf (opc : OpcodeMap) : Mnemonic → Byte
  | .halt => opc.halt
  | .init => opc.init
  | .set => opc.set
  | .save => opc.save
  | .add => opc.add
  | .sub => opc.sub
  | .mul => opc.mul
  | .div => opc.div
  | .inc => opc.inc
  | .dec => opc.dec
  | .prn => opc.prn
  | .pra => opc.pra
  | .push => opc.push
  | .pop => opc.pop
  | .call => opc.call
  | .ret => opc.ret
  | .ld => opc.ld
  | .st => opc.st
  | .ldri => opc.ldri
  | .stri => opc.stri
  | .jmp => opc.jmp
  | .cmp => opc.cmp
  | .jeq => opc.jeq
  | .jne => opc.jne

/-- The parameter `UNSET_FLAG` (46_compare_branch.md R184, D7). -/
inductive UnsetFlagPolicy where
  /-- a conditional jump on the unset flag raises `UnsetFlag` -/
  | fault
  /-- the unset flag reads as not equal -/
  | asFalse
deriving DecidableEq, Repr

/-- The parameters of one core, fixed at its construction (10_state.md R35). -/
structure Config where
  /-- `OPC` -/
  opc : OpcodeMap
  /-- `POP_ADJUSTS_SP` (44_stack.md R151, D6) -/
  popAdjustsSp : Bool
  /-- `UNSET_FLAG` -/
  unsetFlag : UnsetFlagPolicy
deriving DecidableEq, Repr

end Sys2Proof
end

