-- ==== Sys2Proof/Decode.lean ====
section
/-! DEFINITION. The opcode map's default, the decoder from bytes to an instruction, and the encoder
(30_encoding.md R70 to R78). The decoder is total: it answers an instruction, an invalid opcode, or the
number of the byte that is not there. -/

namespace Sys2Proof

/-- The default `OPC`: table order from 0x00 (30_encoding.md R74, decision D1). It is the spec's choice,
not the repository's values. -/
def defaultOpcodes : OpcodeMap where
  halt := 0x00
  init := 0x01
  set := 0x02
  save := 0x03
  add := 0x04
  sub := 0x05
  mul := 0x06
  div := 0x07
  inc := 0x08
  dec := 0x09
  prn := 0x0A
  pra := 0x0B
  push := 0x0C
  pop := 0x0D
  call := 0x0E
  ret := 0x0F
  ld := 0x10
  st := 0x11
  ldri := 0x12
  stri := 0x13
  jmp := 0x14
  cmp := 0x15
  jeq := 0x16
  jne := 0x17

/-- The default value of every parameter (00_scope.md R6). -/
def defaultConfig : Config where
  opc := defaultOpcodes
  popAdjustsSp := false
  unsetFlag := .fault

/-- The format of each mnemonic (30_encoding.md R71). -/
def Mnemonic.format : Mnemonic → Format
  | .halt | .init | .prn | .pra | .push | .pop | .call | .ret | .jmp => .F1
  | .inc | .dec => .F1R
  | .set | .save => .F2I
  | .ld | .st | .jeq | .jne => .F2A
  | .cmp => .F2R
  | .ldri | .stri => .F2S
  | .add | .sub | .mul | .div => .F3RR

/-- How many bytes an instruction of the format occupies (30_encoding.md R71, R74). -/
def Format.length : Format → Nat
  | .F1 | .F1R => 1
  | .F2I | .F2A | .F2R | .F2S => 2
  | .F3RR => 3

/-- How many bytes after the opcode the instruction reads as operands (30_encoding.md R74). -/
def Format.operandCount : Format → Nat
  | .F1 | .F2S => 0
  | .F1R | .F2I | .F2A | .F2R => 1
  | .F3RR => 2

/-- The mnemonic `M` with `OPC(M) = b`, if there is one (30_encoding.md R73, 40_cycle.md R93). On a map
that is not injective it is the first in table order (no core of the spec has such a map: log entry 2). -/
def OpcodeMap.mnemonicOf (opc : OpcodeMap) (b : Byte) : Option Mnemonic :=
  Mnemonic.all.find? fun m => opc.byteOf m == b

/-- Why bytes are no instruction. -/
inductive DecodeError where
  /-- the first byte is `OPC(M)` for no `M` (30_encoding.md R76) -/
  | invalidOpcode (opcode : Byte)
  /-- byte `k` of the instruction, counted from its opcode, lies beyond the bytes given (40_cycle.md R94) -/
  | missingByte (k : Nat)
deriving DecidableEq, Repr

/-- An instruction with one operand byte. -/
def oneOperand (mk : Byte → Instr) : List Byte → Except DecodeError Instr
  | b :: _ => .ok (mk b)
  | [] => .error (.missingByte 1)

/-- An instruction with two operand bytes, read in ascending order (40_cycle.md R94). -/
def twoOperands (mk : Byte → Byte → Instr) : List Byte → Except DecodeError Instr
  | b0 :: b1 :: _ => .ok (mk b0 b1)
  | [_] => .error (.missingByte 2)
  | [] => .error (.missingByte 1)

/-- The instruction of a mnemonic, with its operands taken from the bytes after the opcode. Operand
bytes that its rule does not read are not looked at (30_encoding.md R77). -/
def decodeOperands : Mnemonic → List Byte → Except DecodeError Instr
  | .halt, _ => .ok .halt
  | .init, _ => .ok .init
  | .set, bs => oneOperand .set bs
  | .save, bs => oneOperand .save bs
  | .add, bs => twoOperands .add bs
  | .sub, bs => twoOperands .sub bs
  | .mul, bs => twoOperands .mul bs
  | .div, bs => twoOperands .div bs
  | .inc, bs => oneOperand .inc bs
  | .dec, bs => oneOperand .dec bs
  | .prn, _ => .ok .prn
  | .pra, _ => .ok .pra
  | .push, _ => .ok .push
  | .pop, _ => .ok .pop
  | .call, _ => .ok .call
  | .ret, _ => .ok .ret
  | .ld, bs => oneOperand .ld bs
  | .st, bs => oneOperand .st bs
  | .ldri, _ => .ok .ldri
  | .stri, _ => .ok .stri
  | .jmp, _ => .ok .jmp
  | .cmp, bs => oneOperand .cmp bs
  | .jeq, bs => oneOperand .jeq bs
  | .jne, bs => oneOperand .jne bs

/-- The instruction at the head of a list of bytes (30_encoding.md R73, R77): the opcode is looked up
first, so an invalid opcode is reported before a missing operand (60_exceptions.md R205). -/
def decode (opc : OpcodeMap) : List Byte → Except DecodeError Instr
  | [] => .error (.missingByte 0)
  | op :: rest =>
    match opc.mnemonicOf op with
    | none => .error (.invalidOpcode op)
    | some m => decodeOperands m rest

/-- The operand bytes an instruction reads, in memory order. -/
def Instr.operandBytes : Instr → List Byte
  | .halt | .init | .prn | .pra | .push | .pop | .call | .ret | .ldri | .stri | .jmp => []
  | .set b | .save b | .inc b | .dec b | .ld b | .st b | .cmp b | .jeq b | .jne b => [b]
  | .add r0 r1 | .sub r0 r1 | .mul r0 r1 | .div r0 r1 => [r0, r1]

/-- The bytes of an instruction in memory order (30_encoding.md R70, R71). For INC and DEC the second
byte is the register index at `pc + 1`, which lies beyond the one byte the instruction occupies; the
skipped byte of LDRI and STRI is written as 0 (log entry 4). -/
def encode (opc : OpcodeMap) (i : Instr) : List Byte :=
  let f := i.mnemonic.format
  opc.byteOf i.mnemonic :: (i.operandBytes ++ List.replicate (f.length - 1 - f.operandCount) 0)

/-- The bytes of an instruction whose bits are `w`, numbered as opcode_table.json numbers them: the
first byte is bits 7..0, the second bits 15..8; every bit above `nbits` is 0. Three bytes, the longest
instruction. -/
def tableWordBytes (nbits w : Nat) : List Byte :=
  let v := w % 2 ^ nbits
  [BitVec.ofNat 8 v, BitVec.ofNat 8 (v / 256), BitVec.ofNat 8 (v / 65536)]

/-- The instruction the decoder reads from a word of opcode_table.json, whose opcode bytes are the
default `OPC`'s. -/
def decodeTableWord (nbits w : Nat) : Option Instr :=
  (decode defaultOpcodes (tableWordBytes nbits w)).toOption

end Sys2Proof
end

