-- ==== Sys2Proof/Machine/State.lean ====
section
/-! DEFINITION. The state of the core (10_state.md section 1), its reset value (R36), and the reasons a
step can stop. -/

namespace Sys2Proof.Machine

/-- The equal flag `EQ` (10_state.md R26). -/
inductive EqFlag where
  /-- no CMP has run yet -/
  | unset
  /-- the last CMP found its registers different -/
  | isFalse
  /-- the last CMP found its registers equal -/
  | isTrue
deriving DecidableEq, Repr

/-- The run state of the core (10_state.md R29). -/
inductive Status where
  | running
  | haltedNormal
  | haltedError
deriving DecidableEq, Repr

/-- An error with the datum its kind records (60_exceptions.md R200). -/
inductive RaisedError where
  /-- the fetched byte is the opcode of no instruction -/
  | invalidOpcode (opcode : Byte)
  /-- DIV with a zero divisor; the divisor's register index -/
  | divisionByZero (r1 : Byte)
  /-- an address, register index, written value or next `pc` above 255; that number -/
  | outOfRange (n : Nat)
  /-- JEQ or JNE on the unset flag, with `UNSET_FLAG = fault` -/
  | unsetFlag
deriving DecidableEq, Repr

/-- The error record (10_state.md R30, 60_exceptions.md R203): the error (kind and datum), the `pc` of
the step that raised it and the opcode byte fetched there. -/
structure ErrorRecord where
  error  : RaisedError
  pc     : Byte
  opcode : Byte
deriving DecidableEq, Repr

/-- One output event (43_output.md R140). -/
inductive OutEvent where
  /-- from PRN -/
  | dec (v : Byte)
  /-- from PRA -/
  | chr (v : Byte)
deriving DecidableEq, Repr

/-- Memory: (address, byte) pairs in the canonical form `Memory.wf`; an unlisted address reads as 0,
the reset contents of every cell (10_state.md R32, log entry 3). -/
abbrev Memory := List Host.Cell

/-- The state of the core (10_state.md section 1). -/
structure State where
  /-- the 256 memory cells, R32 -/
  mem    : Memory
  /-- the 256 registers, R20; register 255 is the stack pointer, R22 -/
  x      : Vector Byte 256
  /-- the program counter, R24 -/
  pc     : Byte
  /-- the current-register selector, R25 -/
  cur    : Byte
  /-- the equal flag, R26 -/
  eq     : EqFlag
  /-- the run state, R29 -/
  status : Status
  /-- the error record of a `haltedError` state, R30 -/
  err    : Option ErrorRecord
  /-- the output events so far, oldest first, R31 -/
  out    : List OutEvent
  /-- the parameters the core was constructed with: the model's own field, a constant that no step
  changes (R35; log entry 1) -/
  cfg    : Config
deriving DecidableEq, Repr

/-- The faults of a step: NONE. Every error of the spec has an entry that it describes, a next state
with status `haltedError` (60_exceptions.md R203), and a halted core's step changes nothing
(40_cycle.md R91), so no step stops outside the state. Nobody raises one (safe: there is none). -/
inductive Fault where
deriving DecidableEq, Repr

/-- The refusals of a step. -/
inductive Refusal where
  /-- An instruction without a meaning, raised by an arm of `exec` that is still rejected by name. No
  arm of this model raises it (safe: a refusal only stops). -/
  | notModelled (mnemonic : String)
deriving DecidableEq, Repr

/-- The outcome of one step or one instruction. -/
abbrev StepOutcome := Host.Outcome State Fault Refusal

/-- The core just constructed with the given parameters (70_reset_and_hazards.md R220, 10_state.md
R36): memory and registers 0, `pc` and `cur` 0, flag unset, running, no error, no output. -/
def State.construct (cfg : Config) : State where
  mem := []
  x := Vector.replicate 256 0
  pc := 0
  cur := 0
  eq := .unset
  status := .running
  err := none
  out := []
  cfg := cfg

/-- The machine right after reset, with the spec's default parameters (R36; R6). -/
def State.reset : State := State.construct defaultConfig

end Sys2Proof.Machine
end

