-- ==== Sys2Proof/Machine/Ops.lean ====
section
/-! DEFINITION. The named operations over memory and registers, the primitives of the spec's pseudocode
(00_scope.md R10), the transaction of a step (40_cycle.md R96) and the error entry (60_exceptions.md
R203). -/

namespace Sys2Proof.Machine

/-! ## Memory as data -/

/-- What an address that no pair lists reads as: 0, every cell's reset value (10_state.md R32). -/
def memoryFill : Byte := 0

/-- The byte at an address. -/
def Memory.read : Memory → Nat → Byte
  | [], _ => memoryFill
  | (k, v) :: m, a => if k = a then v else Memory.read m a

/-- The pairs without the ones of address `a`. -/
def Memory.eraseCell (m : Memory) (a : Nat) : Memory :=
  m.filter fun c => decide (c.1 ≠ a)

/-- The pair `(a, v)` put before the first pair of a higher address. -/
def Memory.insertCell (a : Nat) (v : Byte) : Memory → Memory
  | [] => [(a, v)]
  | c :: m => if a < c.1 then (a, v) :: c :: m else c :: Memory.insertCell a v m

/-- Memory with byte `v` at address `a`; a byte equal to the fill value is not listed, so equal memories
are equal lists. -/
def Memory.write (m : Memory) (a : Nat) (v : Byte) : Memory :=
  if v = memoryFill then Memory.eraseCell m a
  else Memory.insertCell a v (Memory.eraseCell m a)

/-- The canonical form: addresses strictly rising, inside 0..255 (20_memory.md R50), and no pair equal
to what an unlisted address reads as. -/
def Memory.wf (m : Memory) : Bool :=
  decide (m.Pairwise fun c d => c.1 < d.1) && m.all fun c => decide (c.1 ≤ 255) && c.2 != memoryFill

/-! ## The state's accessors -/

/-- `x[i]` (00_scope.md R9, 10_state.md R20). -/
def State.reg (s : State) (i : Byte) : Byte := s.x[i.toNat]'i.isLt

/-- `x[i] <- v`. -/
def State.setReg (s : State) (i v : Byte) : State := { s with x := s.x.set i.toNat v i.isLt }

/-- `mem[a]`. -/
def State.byteAt (s : State) (a : Nat) : Byte := Memory.read s.mem a

/-- `mem[a] <- v`. -/
def State.setByte (s : State) (a : Nat) (v : Byte) : State := { s with mem := Memory.write s.mem a v }

/-- `pc <- t`. -/
def State.setPc (s : State) (t : Byte) : State := { s with pc := t }

/-- `cur <- i`. -/
def State.setCur (s : State) (i : Byte) : State := { s with cur := i }

/-- `EQ <- f`. -/
def State.setEq (s : State) (f : EqFlag) : State := { s with eq := f }

/-- `halt`: `status <- halted_normal` (00_scope.md R10). -/
def State.halt (s : State) : State := { s with status := .haltedNormal }

/-- `Emit(e)`: append an output event (43_output.md R140). -/
def State.emit (s : State) (e : OutEvent) : State := { s with out := s.out ++ [e] }

/-- The index of the stack pointer register (10_state.md R22). -/
def spIndex : Byte := 255

/-- The fixed cell every push writes (20_memory.md R57, 44_stack.md R150). -/
def stackCell : Nat := 255

/-! ## The primitives that can raise -/

/-- `MemRead(a, 1)` (20_memory.md R52). -/
def memRead (s : State) (a : Nat) : Except RaisedError Byte :=
  if a > 255 then .error (.outOfRange a) else .ok (s.byteAt a)

/-- `MemWrite(a, 1, v)` (20_memory.md R52): the address is checked first, then the value. -/
def memWrite (s : State) (a v : Nat) : Except RaisedError State :=
  if a > 255 then .error (.outOfRange a)
  else if v > 255 then .error (.outOfRange v)
  else .ok (s.setByte a (BitVec.ofNat 8 v))

/-- `RegIndex(i)` (00_scope.md R10, 10_state.md R20). -/
def regIndex (i : Nat) : Except RaisedError Byte :=
  if i > 255 then .error (.outOfRange i) else .ok (BitVec.ofNat 8 i)

/-- `pc` set to a computed target, which must be an address (40_cycle.md R95). -/
def jumpTo (s : State) (t : Nat) : Except RaisedError State :=
  if t > 255 then .error (.outOfRange t) else .ok (s.setPc (BitVec.ofNat 8 t))

/-- `Advance(n)` (40_cycle.md R95). -/
def advance (s : State) (n : Nat) : Except RaisedError State := jumpTo s (s.pc.toNat + n)

/-! ## Error entry and commit -/

/-- Error entry (60_exceptions.md R203): `status <- halted_error`, the record is written, nothing else
changes. There is no return from it (R204). -/
def State.enterError (s : State) (e : RaisedError) : State :=
  { s with
    status := .haltedError
    err := some { error := e, pc := s.pc, opcode := s.byteAt s.pc.toNat } }

/-- The transaction of a step (40_cycle.md R96): the effect as a whole, or the error entry from the
state before the instruction. -/
def commit (s : State) : Except RaisedError State → StepOutcome
  | .ok t => .next t
  | .error e => .next (s.enterError e)

/-- The numeric code of an error's kind (60_exceptions.md R200, D13). -/
def RaisedError.code : RaisedError → Nat
  | .invalidOpcode _ => 1
  | .divisionByZero _ => 2
  | .outOfRange _ => 3
  | .unsetFlag => 4

/-- The datum of an error record (60_exceptions.md R200). -/
def RaisedError.datum : RaisedError → Option Nat
  | .invalidOpcode op => some op.toNat
  | .divisionByZero r1 => some r1.toNat
  | .outOfRange n => some n
  | .unsetFlag => none

end Sys2Proof.Machine
end

