-- ==== Sys2Proof/Machine/Operands.lean ====
section
/-! DEFINITION. The operand forms of the core (30_encoding.md R72, 45_memory_access.md R170 to R174):
operand bytes, the current register, the register numbered `pc + 1`, and the stack's push and pop
(44_stack.md R150, R151). -/

namespace Sys2Proof.Machine

/-- `Opnd(k)`: the `k`-th byte after the opcode (40_cycle.md R94); `Opnd(0)` is the opcode (R92). -/
def opnd (s : State) (k : Nat) : Except RaisedError Byte := memRead s (s.pc.toNat + k)

/-- `x[cur]`, the implicit source (10_state.md R25). -/
def State.current (s : State) : Byte := s.reg s.cur

/-- `x[cur] <- v`, the implicit destination (10_state.md R25). -/
def State.setCurrent (s : State) (v : Byte) : State := s.setReg s.cur v

/-- The effective address of LDRI and STRI: the contents of the register whose index is the NUMBER
`pc + 1` (45_memory_access.md R172, R173, D23). -/
def indirectAddress (s : State) : Except RaisedError Byte :=
  (regIndex (s.pc.toNat + 1)).map s.reg

/-- The stack pointer (10_state.md R22). -/
def State.sp (s : State) : Byte := s.reg spIndex

/-- `x[255] <- (x[255] - 1) mod 256` (10_state.md R23). -/
def State.decrementSp (s : State) : State := s.setReg spIndex (s.sp - 1)

/-- `x[255] <- (x[255] + 1) mod 256` when `POP_ADJUSTS_SP`, else nothing (44_stack.md R151). -/
def State.adjustSpAfterPop (s : State) : State :=
  if s.cfg.popAdjustsSp then s.setReg spIndex (s.sp + 1) else s

/-- The byte a pop reads: `MemRead(x[255], 1)` (44_stack.md R151). -/
def popRead (s : State) : Except RaisedError Byte := memRead s s.sp.toNat

/-- The store of a push into the fixed cell 255 (44_stack.md R150). The value is a number, so that
CALL's `pc + 1` can be out of range (R154). -/
def pushWrite (s : State) (v : Nat) : Except RaisedError State := memWrite s stackCell v

end Sys2Proof.Machine
end

