-- ==== Sys2Proof/Machine/Arith.lean ====
section
/-! DEFINITION. The ALU and ADD, SUB, MUL, DIV, INC, DEC (42_arithmetic.md). Results are computed on
mathematical integers and brought back to a byte modulo 256 (00_scope.md R8, R120). No flag is written
(10_state.md R27). -/

namespace Sys2Proof.Machine

/-- `n mod 256` as a byte (00_scope.md R8). -/
def reduce256 (n : Int) : Byte := BitVec.ofInt 8 n

/-- `(a + b) mod 256` (R120). -/
def aluAdd (a b : Byte) : Byte := reduce256 ((a.toNat : Int) + (b.toNat : Int))

/-- `(a - b) mod 256` (R120). -/
def aluSub (a b : Byte) : Byte := reduce256 ((a.toNat : Int) - (b.toNat : Int))

/-- `(a * b) mod 256` (R120). -/
def aluMul (a b : Byte) : Byte := reduce256 ((a.toNat : Int) * (b.toNat : Int))

/-- `a div b`, floor division; a zero divisor in register `r1` raises (R120, R124). -/
def aluDiv (r1 a b : Byte) : Except RaisedError Byte :=
  if b = 0 then .error (.divisionByZero r1) else .ok (BitVec.ofNat 8 (a.toNat / b.toNat))

/-- ADD (R121): both sources are read before the destination is written. -/
def execAdd (r0 r1 : Byte) (s : State) : StepOutcome :=
  commit s (advance (s.setCurrent (aluAdd (s.reg r0) (s.reg r1))) 3)

/-- SUB (R122). -/
def execSub (r0 r1 : Byte) (s : State) : StepOutcome :=
  commit s (advance (s.setCurrent (aluSub (s.reg r0) (s.reg r1))) 3)

/-- MUL (R123). -/
def execMul (r0 r1 : Byte) (s : State) : StepOutcome :=
  commit s (advance (s.setCurrent (aluMul (s.reg r0) (s.reg r1))) 3)

/-- DIV (R124): the zero divisor is reported before the advance (R205). -/
def execDiv (r0 r1 : Byte) (s : State) : StepOutcome :=
  commit s do
    let q ← aluDiv r1 (s.reg r0) (s.reg r1)
    advance (s.setCurrent q) 3

/-- INC (R125): the operand's register, not `cur`; the advance is 1 (C2, D27). -/
def execInc (r : Byte) (s : State) : StepOutcome :=
  commit s (advance (s.setReg r (aluAdd (s.reg r) 1)) 1)

/-- DEC (R126). -/
def execDec (r : Byte) (s : State) : StepOutcome :=
  commit s (advance (s.setReg r (aluSub (s.reg r) 1)) 1)

end Sys2Proof.Machine
end

