-- ==== Sys2Proof/Machine/Flags.lean ====
section
/-! DEFINITION. The one flag of the core: how CMP computes it and how JEQ and JNE read it
(10_state.md R26, R27; 46_compare_branch.md R181, R184). No other instruction touches it. -/

namespace Sys2Proof.Machine

/-- The flag of a comparison of two bytes (46_compare_branch.md R181): never unset. -/
def compareBytes (a b : Byte) : EqFlag := if a = b then .isTrue else .isFalse

/-- `CondEQ()` (46_compare_branch.md R184). -/
def condEq (s : State) : Except RaisedError Bool :=
  match s.eq with
  | .isTrue => .ok true
  | .isFalse => .ok false
  | .unset =>
    match s.cfg.unsetFlag with
    | .fault => .error .unsetFlag
    | .asFalse => .ok false

end Sys2Proof.Machine
end

