-- ==== Sys2Proof/Machine/Branch.lean ====
section
/-! DEFINITION. JMP, CMP, JEQ, JNE (46_compare_branch.md). -/

namespace Sys2Proof.Machine

/-- JMP (R180), kept literally: the target is the number `pc + 1` (D23). -/
def execJmp (s : State) : StepOutcome := commit s (jumpTo s (s.pc.toNat + 1))

/-- CMP (R181). -/
def execCmp (r : Byte) (s : State) : StepOutcome :=
  commit s (advance (s.setEq (compareBytes s.current (s.reg r))) 2)

/-- JEQ (R182): the target is the operand's value (D8). -/
def execJeq (addr : Byte) (s : State) : StepOutcome :=
  commit s do
    let c ← condEq s
    if c then .ok (s.setPc addr) else advance s 2

/-- JNE (R183). -/
def execJne (addr : Byte) (s : State) : StepOutcome :=
  commit s do
    let c ← condEq s
    if c then advance s 2 else .ok (s.setPc addr)

end Sys2Proof.Machine
end

