-- ==== Sys2Proof/Machine/Control.lean ====
section
/-! DEFINITION. HALT, INIT, SET, SAVE (41_control_select.md). -/

namespace Sys2Proof.Machine

/-- HALT (R110): stops the core; `pc` keeps HALT's address (D25). -/
def execHalt (s : State) : StepOutcome := commit s (.ok s.halt)

/-- INIT (R111). -/
def execInit (s : State) : StepOutcome := commit s (advance (s.setCur 0) 1)

/-- SET (R112): the immediate is the register's number. -/
def execSet (imm : Byte) (s : State) : StepOutcome := commit s (advance (s.setCur imm) 2)

/-- SAVE (R113). -/
def execSave (imm : Byte) (s : State) : StepOutcome := commit s (advance (s.setCurrent imm) 2)

end Sys2Proof.Machine
end

