-- ==== Sys2Proof/Machine/MemAccess.lean ====
section
/-! DEFINITION. LD, ST, LDRI, STRI (45_memory_access.md). -/

namespace Sys2Proof.Machine

/-- LD (R170). -/
def execLd (addr : Byte) (s : State) : StepOutcome :=
  commit s do
    let v ← memRead s addr.toNat
    advance (s.setCurrent v) 2

/-- ST (R171). -/
def execSt (addr : Byte) (s : State) : StepOutcome :=
  commit s do
    let t ← memWrite s addr.toNat s.current.toNat
    advance t 2

/-- LDRI (R172): literal addressing through `x[pc + 1]` (D23). -/
def execLdri (s : State) : StepOutcome :=
  commit s do
    let a ← indirectAddress s
    let v ← memRead s a.toNat
    advance (s.setCurrent v) 2

/-- STRI (R173): literal addressing through `x[pc + 1]` (D23). -/
def execStri (s : State) : StepOutcome :=
  commit s do
    let a ← indirectAddress s
    let t ← memWrite s a.toNat s.current.toNat
    advance t 2

end Sys2Proof.Machine
end

