-- ==== Sys2Proof/Machine/Output.lean ====
section
/-! DEFINITION. PRN and PRA, and the rendering of output events at the sink (43_output.md). -/

namespace Sys2Proof.Machine

/-- PRN (R141): emits the current register as a number. -/
def execPrn (s : State) : StepOutcome := commit s (advance (s.emit (.dec s.current)) 1)

/-- PRA (R142): emits the current register as a character code. -/
def execPra (s : State) : StepOutcome := commit s (advance (s.emit (.chr s.current)) 1)

/-- The decimal digits of a byte, most significant first, no leading zero, `0` for zero (R143). -/
def decimalDigits (v : Byte) : List Nat :=
  let n := v.toNat
  if n < 10 then [n]
  else if n < 100 then [n / 10, n % 10]
  else [n / 100, n / 10 % 10, n % 10]

/-- The line separator LF. PRESUMED: general knowledge (R143, G2; log entry 6). -/
def lineSeparator : Nat := 0x0A

/-- The character codes the sink shows for one event (R143): `Dec(v)` is its decimal digits and a line
separator, `Chr(v)` the one character whose code is `v`. Which glyph a code names is the sink's (U13);
that a digit `d` has code 48 + d is general knowledge (log entry 6). -/
def OutEvent.render : OutEvent → List Nat
  | .dec v => (decimalDigits v).map (48 + ·) ++ [lineSeparator]
  | .chr v => [v.toNat]

/-- The character codes of a list of events, in order (R140). -/
def render (es : List OutEvent) : List Nat := es.flatMap OutEvent.render

end Sys2Proof.Machine
end

