-- ==== Sys2Proof/Machine/Stack.lean ====
section
/-! DEFINITION. PUSH, POP, CALL, RET (44_stack.md): pushes store into the fixed cell 255, pops read the
cell the stack pointer names. -/

namespace Sys2Proof.Machine

/-- PUSH (R152): the value is read after the decrement (D10). -/
def execPush (s : State) : StepOutcome :=
  commit s do
    let s1 := s.decrementSp
    let s2 ← pushWrite s1 s1.current.toNat
    advance s2 1

/-- POP (R153): the destination is written before the stack pointer is adjusted (D12). -/
def execPop (s : State) : StepOutcome :=
  commit s do
    let v ← popRead s
    advance (s.setCurrent v).adjustSpAfterPop 1

/-- CALL (R154): the return address `pc + 1` may be out of range; the target is read after the push
(D11). -/
def execCall (s : State) : StepOutcome :=
  commit s do
    let s1 := s.decrementSp
    let s2 ← pushWrite s1 (s.pc.toNat + 1)
    .ok (s2.setPc s2.current)

/-- RET (R155). -/
def execRet (s : State) : StepOutcome :=
  commit s do
    let v ← popRead s
    .ok (s.adjustSpAfterPop.setPc v)

end Sys2Proof.Machine
end

