-- ==== Sys2Proof/Machine/Dispatch.lean ====
section
/-! DEFINITION. One arm per instruction: the "Execute" part of 40_cycle.md R97. -/

namespace Sys2Proof.Machine

/-- The effect of an instruction whose operand bytes have been read. -/
def exec (i : Instr) (s : State) : Host.Outcome State Fault Refusal :=
  match i with
  | .halt => Sys2Proof.Machine.execHalt s
  | .init => Sys2Proof.Machine.execInit s
  | .set imm => Sys2Proof.Machine.execSet imm s
  | .save imm => Sys2Proof.Machine.execSave imm s
  | .add r0 r1 => Sys2Proof.Machine.execAdd r0 r1 s
  | .sub r0 r1 => Sys2Proof.Machine.execSub r0 r1 s
  | .mul r0 r1 => Sys2Proof.Machine.execMul r0 r1 s
  | .div r0 r1 => Sys2Proof.Machine.execDiv r0 r1 s
  | .inc r => Sys2Proof.Machine.execInc r s
  | .dec r => Sys2Proof.Machine.execDec r s
  | .prn => Sys2Proof.Machine.execPrn s
  | .pra => Sys2Proof.Machine.execPra s
  | .push => Sys2Proof.Machine.execPush s
  | .pop => Sys2Proof.Machine.execPop s
  | .call => Sys2Proof.Machine.execCall s
  | .ret => Sys2Proof.Machine.execRet s
  | .ld addr => Sys2Proof.Machine.execLd addr s
  | .st addr => Sys2Proof.Machine.execSt addr s
  | .ldri => Sys2Proof.Machine.execLdri s
  | .stri => Sys2Proof.Machine.execStri s
  | .jmp => Sys2Proof.Machine.execJmp s
  | .cmp r => Sys2Proof.Machine.execCmp r s
  | .jeq addr => Sys2Proof.Machine.execJeq addr s
  | .jne addr => Sys2Proof.Machine.execJne addr s

end Sys2Proof.Machine
end

