-- ==== Sys2Proof/Machine/Fetch.lean ====
section
/-! DEFINITION. Fetch and decode as the step uses them (40_cycle.md R92 to R94), and the store of an
instruction's bytes at the program counter. -/

namespace Sys2Proof.Machine

/-- The bytes at `pc`, `pc + 1` and `pc + 2`, as far as memory goes (40_cycle.md R92, R94; three bytes
are the longest instruction, 30_encoding.md R70). Reading a byte has no effect (20_memory.md R56), so
reading one the instruction does not use is not visible. -/
def fetchBytes (s : State) : List Byte :=
  [0, 1, 2].filterMap fun k => (opnd s k).toOption

/-- The error a failed decode raises (40_cycle.md R93, R94): a byte `k` that is not there is the read of
address `pc + k`, which is out of range. -/
def decodeErrorRaised (s : State) : DecodeError → RaisedError
  | .invalidOpcode op => .invalidOpcode op
  | .missingByte k => .outOfRange (s.pc.toNat + k)

/-- Bytes stored at address `a` and the addresses after it, as far as memory goes. -/
def State.storeBytes (s : State) : Nat → List Byte → State
  | _, [] => s
  | a, b :: bs => if a > 255 then s else (s.setByte a b).storeBytes (a + 1) bs

/-- The state with bytes placed where the next step fetches, in a core that has a next step
(40_cycle.md R91): bytes at `pc`, running, no error record (log entry 5). -/
def State.placeAtPc (s : State) (bs : List Byte) : State :=
  { s.storeBytes s.pc.toNat bs with status := .running, err := none }

end Sys2Proof.Machine
end

