-- ==== Sys2Proof/Machine/Step.lean ====
section
/-! DEFINITION. The step of the core (40_cycle.md R97). -/

namespace Sys2Proof.Machine

/-- One step: fetch, decode, execute, commit, in a running core; a halted core has no step and the
request changes nothing (40_cycle.md R91, R97). -/
def step (s : State) : Host.Outcome State Fault Refusal :=
  match s.status with
  | .running =>
    match decode s.cfg.opc (fetchBytes s) with
    | .ok i => exec i s
    | .error e => commit s (.error (decodeErrorRaised s e))
  | .haltedNormal | .haltedError => .next s

/-- The state with an instruction word of opcode_table.json stored where `step` fetches next. -/
def State.withFetchWord (s : State) (nbits w : Nat) : State :=
  s.placeAtPc (tableWordBytes nbits w)

end Sys2Proof.Machine
end

