-- ==== Sys2Proof/WellFormed.lean ====
section
/-! DEFINITION. The static checks of the spec: an injective opcode map (30_encoding.md R75), a program
load the core accepts (40_cycle.md R102, D30), and an instruction that fits in memory where it stands
(40_cycle.md R94). The operands of an `Instr` need no check: every byte is a valid immediate, register
index and address (30_encoding.md R76). -/

namespace Sys2Proof

/-- `OPC` is injective: no two instructions share a byte (30_encoding.md R75). -/
def OpcodeMap.wf (opc : OpcodeMap) : Bool :=
  decide ((Mnemonic.all.map opc.byteOf).Nodup)

/-- A configuration of the spec: its opcode map is injective; every value of the two other parameters
is allowed (00_scope.md R6). -/
def Config.wf (cfg : Config) : Bool := cfg.opc.wf

/-- One poke of the loader, address and value, is in range (40_cycle.md R101). -/
def pokeWf (p : Nat × Nat) : Bool := decide (p.1 ≤ 255) && decide (p.2 ≤ 255)

/-- Every poke of a load is in range (40_cycle.md R102). -/
def pokesWf (ps : List (Nat × Nat)) : Bool := ps.all pokeWf

/-- A byte sequence the loader may write from address 0: at most 256 values, each a byte
(40_cycle.md R102, D30). -/
def byteSequenceWf (bs : List Nat) : Bool :=
  decide (bs.length ≤ 256) && bs.all (fun v => decide (v ≤ 255))

/-- An instruction whose opcode is at address `p` has every byte it reads inside memory
(40_cycle.md R94). -/
def Instr.fitsAt (i : Instr) (p : Nat) : Bool :=
  decide (p + i.mnemonic.format.operandCount ≤ 255)

end Sys2Proof
end

