-- ==== Sys2Proof/Machine/HostInterface.lean ====
section
/-! DEFINITION. The host's operations on the core: construct, poke, load, step, run, snapshot
(40_cycle.md R98 to R103). Each is atomic and happens between steps (R101). -/

namespace Sys2Proof.Machine

/-- A host's hold on one core: the core and the number of steps taken since its construction
(40_cycle.md R98; a poke is allowed only before the first step, R102). -/
structure Session where
  core  : State
  steps : Nat
deriving DecidableEq, Repr

/-- `construct()`: a new core in the reset state (40_cycle.md R101). -/
def construct (cfg : Config) : Session := { core := State.construct cfg, steps := 0 }

/-- `poke(a, v)`: only before the first step and with both numbers in range, else refused (R101, R102,
D15, D30). -/
def poke (h : Session) (a v : Nat) : Option Session :=
  if h.steps = 0 ∧ pokeWf (a, v) = true then
    some { h with core := h.core.setByte a (BitVec.ofNat 8 v) }
  else none

/-- Pokes applied in order: a later poke of the same address wins (R102). -/
def applyPokes (s : State) (ps : List (Nat × Nat)) : State :=
  ps.foldl (fun t p => t.setByte p.1 (BitVec.ofNat 8 p.2)) s

/-- A load by (address, byte) pairs into a new core; a malformed load is refused and no core starts
(R102, D30). -/
def loadPokes (cfg : Config) (ps : List (Nat × Nat)) : Option Session :=
  if pokesWf ps = true then
    some { core := applyPokes (State.construct cfg) ps, steps := 0 }
  else none

/-- A load by a byte sequence, written from address 0 (R102). -/
def loadBytes (cfg : Config) (bs : List Nat) : Option Session :=
  if byteSequenceWf bs = true then loadPokes cfg ((List.range bs.length).zip bs) else none

/-- `step()`: one step of a running core; nothing on a halted one (R91, R101). A step counts whatever it
ends in (R98). The host reads the terminal status in the core's `status`. -/
def hostStep (h : Session) : Session :=
  match h.core.status with
  | .running =>
    match step h.core with
    | .next t => { core := t, steps := h.steps + 1 }
    | .fault _ => h
    | .refused _ => h
  | .haltedNormal | .haltedError => h

/-- `run()`: steps repeated until a terminal state (R99), at most `bound` of them: the bound is the
host's, a run of the core need not end (U16). -/
def hostRun : Nat → Session → Session
  | 0, h => h
  | k + 1, h => hostRun k (hostStep h)

/-- `snapshot()`: a copy of the whole state (R101). -/
def snapshot (h : Session) : State := h.core

end Sys2Proof.Machine
end

