-- ==== Sys2Proof/Safety.lean ====
section
/-! DEFINITION. The terms claims use: what a step leaves unchanged, what an error entry is, and the
invariant of the states between steps. -/

namespace Sys2Proof.Machine

/-- Every register but the listed ones holds what it held. -/
def RegsKeptExcept (ks : List Byte) (s t : State) : Prop := ∀ i : Byte, i ∉ ks → t.reg i = s.reg i

/-- Every byte of memory but the listed ones reads as before. -/
def MemKeptExcept (cells : List Nat) (s t : State) : Prop := ∀ a : Nat, a ∉ cells → t.byteAt a = s.byteAt a

/-- Registers and memory kept but for the listed ones; run state, error record and parameters kept. -/
def KeptExcept (ks : List Byte) (cells : List Nat) (s t : State) : Prop :=
  RegsKeptExcept ks s t ∧ MemKeptExcept cells s t ∧
    t.status = s.status ∧ t.err = s.err ∧ t.cfg = s.cfg

/-- `t` is the error entry from `s` with error `e`: status and record written, nothing else changed
(60_exceptions.md R202, R203). -/
def ErrorEntered (s t : State) (e : RaisedError) : Prop :=
  t.status = .haltedError ∧
  t.err = some { error := e, pc := s.pc, opcode := s.byteAt s.pc.toNat } ∧
  t.pc = s.pc ∧ t.cur = s.cur ∧ t.eq = s.eq ∧ t.out = s.out ∧ t.cfg = s.cfg ∧
  RegsKeptExcept [] s t ∧ MemKeptExcept [] s t

/-- The step from `s` ends in the error entry with `e`. -/
def StepRaises (s : State) (e : RaisedError) : Prop :=
  ∃ t, step s = .next t ∧ ErrorEntered s t e

/-- The core is running, its opcode map is one the spec allows, and the opcode of `m` is at `pc`. -/
abbrev AtOpcode (s : State) (m : Mnemonic) : Prop :=
  s.status = .running ∧ s.cfg.opc.wf = true ∧ s.byteAt s.pc.toNat = s.cfg.opc.byteOf m

/-- A halted core: no step exists (40_cycle.md R91). -/
abbrev State.isTerminal (s : State) : Prop := s.status = .haltedNormal ∨ s.status = .haltedError

/-- An error record stands exactly in the error state, and it names the `pc` that stands and the opcode
byte there (10_state.md R30, 60_exceptions.md R203). -/
def State.errorRecordWf (s : State) : Bool :=
  match s.err with
  | none => s.status != .haltedError
  | some r => s.status == .haltedError && r.pc == s.pc && r.opcode == s.byteAt s.pc.toNat

/-- The invariant of the states between steps: an injective opcode map (30_encoding.md R75), memory in
canonical form with addresses 0..255 only (20_memory.md R50), and a consistent error record. -/
abbrev State.Inv (s : State) : Prop :=
  s.cfg.opc.wf = true ∧ Memory.wf s.mem = true ∧ s.errorRecordWf = true

/-- A run of `k` steps is safe when it ends in a state that is no error state. -/
def SafeRun (k : Nat) (s : State) : Prop :=
  ∃ t, Sys2Proof.core.run k s = .next t ∧ t.status ≠ .haltedError

end Sys2Proof.Machine
end

