-- ==== Sys2Proof/Certificates/Slice0/Obligations.lean ====
section
/-! DEFINITION. The statements for the provers. They quantify over every state, and so over every value of
the parameters OPC, POP_ADJUSTS_SP and UNSET_FLAG, which a state carries (log entry 1). The docstrings
name the decisions D<n> of 92_eei_decisions.md, the spec's own, that a statement rests on. Two run
through all of them: OutOfRange beyond address 255 (D4) and the default opcode bytes (D1). -/

open Sys2Proof Sys2Proof.Machine

/-! ## One statement per instruction rule: encoding, effect with its frame, where it raises -/

/-- 41_control_select.md R110; that `pc` stays is decision D25. -/
def Obligations.HaltStopsTheCoreNormally : Prop :=
  encode defaultOpcodes .halt = [0x00] ∧
  (∀ s : State, ∃ t, exec .halt s = .next t ∧ t.status = .haltedNormal ∧
    t.pc = s.pc ∧ t.cur = s.cur ∧ t.eq = s.eq ∧ t.out = s.out ∧ t.err = s.err ∧ t.cfg = s.cfg ∧
    RegsKeptExcept [] s t ∧ MemKeptExcept [] s t ∧ step t = .next t) ∧
  (∀ s : State, AtOpcode s .halt → step s = exec .halt s)

/-- 41_control_select.md R111. -/
def Obligations.InitSelectsRegisterZero : Prop :=
  encode defaultOpcodes .init = [0x01] ∧
  (∀ s : State, s.pc.toNat + 1 ≤ 255 → ∃ t, exec .init s = .next t ∧
    t.cur = 0 ∧ t.pc.toNat = s.pc.toNat + 1 ∧ t.eq = s.eq ∧ t.out = s.out ∧ KeptExcept [] [] s t) ∧
  (∀ s : State, AtOpcode s .init → step s = exec .init s) ∧
  (∀ s : State, AtOpcode s .init → s.pc.toNat = 255 → StepRaises s (.outOfRange 256))

/-- 41_control_select.md R112. -/
def Obligations.SetSelectsTheRegisterNamedByItsImmediate : Prop :=
  (∀ imm : Byte, encode defaultOpcodes (.set imm) = [0x02, imm]) ∧
  (∀ (imm : Byte) (s : State), s.pc.toNat + 2 ≤ 255 → ∃ t, exec (.set imm) s = .next t ∧
    t.cur = imm ∧ t.pc.toNat = s.pc.toNat + 2 ∧ t.eq = s.eq ∧ t.out = s.out ∧ KeptExcept [] [] s t) ∧
  (∀ s : State, AtOpcode s .set → s.pc.toNat + 1 ≤ 255 →
    step s = exec (.set (s.byteAt (s.pc.toNat + 1))) s) ∧
  (∀ s : State, AtOpcode s .set → 254 ≤ s.pc.toNat → StepRaises s (.outOfRange 256))

/-- 41_control_select.md R113. -/
def Obligations.SaveWritesItsImmediateToTheCurrentRegister : Prop :=
  (∀ imm : Byte, encode defaultOpcodes (.save imm) = [0x03, imm]) ∧
  (∀ (imm : Byte) (s : State), s.pc.toNat + 2 ≤ 255 → ∃ t, exec (.save imm) s = .next t ∧
    t.reg s.cur = imm ∧ t.pc.toNat = s.pc.toNat + 2 ∧ t.cur = s.cur ∧ t.eq = s.eq ∧ t.out = s.out ∧
    KeptExcept [s.cur] [] s t) ∧
  (∀ s : State, AtOpcode s .save → s.pc.toNat + 1 ≤ 255 →
    step s = exec (.save (s.byteAt (s.pc.toNat + 1))) s) ∧
  (∀ s : State, AtOpcode s .save → 254 ≤ s.pc.toNat → StepRaises s (.outOfRange 256))

/-- 42_arithmetic.md R121; the reduction modulo 256 is R120's decision D2. -/
def Obligations.AddWritesTheSumModulo256 : Prop :=
  (∀ r0 r1 : Byte, encode defaultOpcodes (.add r0 r1) = [0x04, r0, r1]) ∧
  (∀ (r0 r1 : Byte) (s : State), s.pc.toNat + 3 ≤ 255 → ∃ t, exec (.add r0 r1) s = .next t ∧
    (t.reg s.cur).toNat = ((s.reg r0).toNat + (s.reg r1).toNat) % 256 ∧
    t.pc.toNat = s.pc.toNat + 3 ∧ t.cur = s.cur ∧ t.eq = s.eq ∧ t.out = s.out ∧
    KeptExcept [s.cur] [] s t) ∧
  (∀ s : State, AtOpcode s .add → s.pc.toNat + 2 ≤ 255 →
    step s = exec (.add (s.byteAt (s.pc.toNat + 1)) (s.byteAt (s.pc.toNat + 2))) s) ∧
  (∀ s : State, AtOpcode s .add → 253 ≤ s.pc.toNat → StepRaises s (.outOfRange 256))

/-- 42_arithmetic.md R122; the reduction modulo 256 is R120's decision D2. -/
def Obligations.SubWritesTheDifferenceModulo256 : Prop :=
  (∀ r0 r1 : Byte, encode defaultOpcodes (.sub r0 r1) = [0x05, r0, r1]) ∧
  (∀ (r0 r1 : Byte) (s : State), s.pc.toNat + 3 ≤ 255 → ∃ t, exec (.sub r0 r1) s = .next t ∧
    ((t.reg s.cur).toNat : Int) = (((s.reg r0).toNat : Int) - ((s.reg r1).toNat : Int)) % 256 ∧
    t.pc.toNat = s.pc.toNat + 3 ∧ t.cur = s.cur ∧ t.eq = s.eq ∧ t.out = s.out ∧
    KeptExcept [s.cur] [] s t) ∧
  (∀ s : State, AtOpcode s .sub → s.pc.toNat + 2 ≤ 255 →
    step s = exec (.sub (s.byteAt (s.pc.toNat + 1)) (s.byteAt (s.pc.toNat + 2))) s) ∧
  (∀ s : State, AtOpcode s .sub → 253 ≤ s.pc.toNat → StepRaises s (.outOfRange 256))

/-- 42_arithmetic.md R123; the reduction modulo 256 is R120's decision D2. -/
def Obligations.MulWritesTheProductModulo256 : Prop :=
  (∀ r0 r1 : Byte, encode defaultOpcodes (.mul r0 r1) = [0x06, r0, r1]) ∧
  (∀ (r0 r1 : Byte) (s : State), s.pc.toNat + 3 ≤ 255 → ∃ t, exec (.mul r0 r1) s = .next t ∧
    (t.reg s.cur).toNat = ((s.reg r0).toNat * (s.reg r1).toNat) % 256 ∧
    t.pc.toNat = s.pc.toNat + 3 ∧ t.cur = s.cur ∧ t.eq = s.eq ∧ t.out = s.out ∧
    KeptExcept [s.cur] [] s t) ∧
  (∀ s : State, AtOpcode s .mul → s.pc.toNat + 2 ≤ 255 →
    step s = exec (.mul (s.byteAt (s.pc.toNat + 1)) (s.byteAt (s.pc.toNat + 2))) s) ∧
  (∀ s : State, AtOpcode s .mul → 253 ≤ s.pc.toNat → StepRaises s (.outOfRange 256))

/-- 42_arithmetic.md R124; floor division is decision D3, the order of the two errors D26 (R205). -/
def Obligations.DivWritesTheFloorQuotientOrRaises : Prop :=
  (∀ r0 r1 : Byte, encode defaultOpcodes (.div r0 r1) = [0x07, r0, r1]) ∧
  (∀ (r0 r1 : Byte) (s : State), s.pc.toNat + 3 ≤ 255 → s.reg r1 ≠ 0 →
    ∃ t, exec (.div r0 r1) s = .next t ∧
      (t.reg s.cur).toNat = (s.reg r0).toNat / (s.reg r1).toNat ∧
      t.pc.toNat = s.pc.toNat + 3 ∧ t.cur = s.cur ∧ t.eq = s.eq ∧ t.out = s.out ∧
      KeptExcept [s.cur] [] s t) ∧
  (∀ s : State, AtOpcode s .div → s.pc.toNat + 2 ≤ 255 →
    step s = exec (.div (s.byteAt (s.pc.toNat + 1)) (s.byteAt (s.pc.toNat + 2))) s) ∧
  (∀ s : State, AtOpcode s .div → s.pc.toNat + 2 ≤ 255 → s.reg (s.byteAt (s.pc.toNat + 2)) = 0 →
    StepRaises s (.divisionByZero (s.byteAt (s.pc.toNat + 2)))) ∧
  (∀ s : State, AtOpcode s .div → s.pc.toNat = 253 → s.reg (s.byteAt 255) ≠ 0 →
    StepRaises s (.outOfRange 256)) ∧
  (∀ s : State, AtOpcode s .div → 254 ≤ s.pc.toNat → StepRaises s (.outOfRange 256))

/-- 42_arithmetic.md R125; the register-index byte is the next opcode fetched (70_reset_and_hazards.md
R227), which is decision D27. -/
def Obligations.IncIncrementsItsOperandRegister : Prop :=
  (∀ r : Byte, encode defaultOpcodes (.inc r) = [0x08, r]) ∧ Mnemonic.inc.format.length = 1 ∧
  (∀ (r : Byte) (s : State), s.pc.toNat + 1 ≤ 255 → ∃ t, exec (.inc r) s = .next t ∧
    (t.reg r).toNat = ((s.reg r).toNat + 1) % 256 ∧
    t.pc.toNat = s.pc.toNat + 1 ∧ t.cur = s.cur ∧ t.eq = s.eq ∧ t.out = s.out ∧ KeptExcept [r] [] s t) ∧
  (∀ s : State, AtOpcode s .inc → s.pc.toNat + 1 ≤ 255 →
    step s = exec (.inc (s.byteAt (s.pc.toNat + 1))) s ∧
    ∃ t, step s = .next t ∧ (fetchBytes t)[0]? = some (s.byteAt (s.pc.toNat + 1))) ∧
  (∀ s : State, AtOpcode s .inc → s.pc.toNat = 255 → StepRaises s (.outOfRange 256))

/-- 42_arithmetic.md R126; the register-index byte is the next opcode fetched, which is decision D27. -/
def Obligations.DecDecrementsItsOperandRegister : Prop :=
  (∀ r : Byte, encode defaultOpcodes (.dec r) = [0x09, r]) ∧ Mnemonic.dec.format.length = 1 ∧
  (∀ (r : Byte) (s : State), s.pc.toNat + 1 ≤ 255 → ∃ t, exec (.dec r) s = .next t ∧
    ((t.reg r).toNat : Int) = (((s.reg r).toNat : Int) - 1) % 256 ∧
    t.pc.toNat = s.pc.toNat + 1 ∧ t.cur = s.cur ∧ t.eq = s.eq ∧ t.out = s.out ∧ KeptExcept [r] [] s t) ∧
  (∀ s : State, AtOpcode s .dec → s.pc.toNat + 1 ≤ 255 →
    step s = exec (.dec (s.byteAt (s.pc.toNat + 1))) s ∧
    ∃ t, step s = .next t ∧ (fetchBytes t)[0]? = some (s.byteAt (s.pc.toNat + 1))) ∧
  (∀ s : State, AtOpcode s .dec → s.pc.toNat = 255 → StepRaises s (.outOfRange 256))

/-- 43_output.md R141. -/
def Obligations.PrnEmitsTheCurrentRegisterAsANumber : Prop :=
  encode defaultOpcodes .prn = [0x0A] ∧
  (∀ s : State, s.pc.toNat + 1 ≤ 255 → ∃ t, exec .prn s = .next t ∧
    t.out = s.out ++ [.dec (s.reg s.cur)] ∧ t.pc.toNat = s.pc.toNat + 1 ∧
    t.cur = s.cur ∧ t.eq = s.eq ∧ KeptExcept [] [] s t) ∧
  (∀ s : State, AtOpcode s .prn → step s = exec .prn s) ∧
  (∀ s : State, AtOpcode s .prn → s.pc.toNat = 255 → StepRaises s (.outOfRange 256))

/-- 43_output.md R142. -/
def Obligations.PraEmitsTheCurrentRegisterAsACharacterCode : Prop :=
  encode defaultOpcodes .pra = [0x0B] ∧
  (∀ s : State, s.pc.toNat + 1 ≤ 255 → ∃ t, exec .pra s = .next t ∧
    t.out = s.out ++ [.chr (s.reg s.cur)] ∧ t.pc.toNat = s.pc.toNat + 1 ∧
    t.cur = s.cur ∧ t.eq = s.eq ∧ KeptExcept [] [] s t) ∧
  (∀ s : State, AtOpcode s .pra → step s = exec .pra s) ∧
  (∀ s : State, AtOpcode s .pra → s.pc.toNat = 255 → StepRaises s (.outOfRange 256))

/-- 44_stack.md R152, with the push sequence R150: register 255 and cell 255 are written. The pushed
value is read after the decrement (decision D10). -/
def Obligations.PushDecrementsTheStackPointerAndStoresInCell255 : Prop :=
  encode defaultOpcodes .push = [0x0C] ∧
  (∀ s : State, s.pc.toNat + 1 ≤ 255 → ∃ t, exec .push s = .next t ∧
    ((t.reg 255).toNat : Int) = (((s.reg 255).toNat : Int) - 1) % 256 ∧
    t.byteAt 255 = (if s.cur = 255 then t.reg 255 else s.reg s.cur) ∧
    t.pc.toNat = s.pc.toNat + 1 ∧ t.cur = s.cur ∧ t.eq = s.eq ∧ t.out = s.out ∧
    KeptExcept [255] [255] s t) ∧
  (∀ s : State, AtOpcode s .push → step s = exec .push s) ∧
  (∀ s : State, AtOpcode s .push → s.pc.toNat = 255 → StepRaises s (.outOfRange 256))

/-- 44_stack.md R153, with the pop sequence R151. The popped value is written before the stack pointer is
adjusted, so that with `cur = 255` the increment applies to it (decision D12). -/
def Obligations.PopReadsTheCellTheStackPointerNames : Prop :=
  encode defaultOpcodes .pop = [0x0D] ∧
  (∀ s : State, s.pc.toNat + 1 ≤ 255 → ∃ t, exec .pop s = .next t ∧
    (s.cfg.popAdjustsSp = false →
      t.reg s.cur = s.byteAt (s.reg 255).toNat ∧ RegsKeptExcept [s.cur] s t) ∧
    (s.cfg.popAdjustsSp = true → s.cur ≠ 255 →
      t.reg s.cur = s.byteAt (s.reg 255).toNat ∧ (t.reg 255).toNat = ((s.reg 255).toNat + 1) % 256) ∧
    (s.cfg.popAdjustsSp = true → s.cur = 255 →
      (t.reg 255).toNat = ((s.byteAt (s.reg 255).toNat).toNat + 1) % 256) ∧
    t.pc.toNat = s.pc.toNat + 1 ∧ t.cur = s.cur ∧ t.eq = s.eq ∧ t.out = s.out ∧
    KeptExcept [s.cur, 255] [] s t) ∧
  (∀ s : State, AtOpcode s .pop → step s = exec .pop s) ∧
  (∀ s : State, AtOpcode s .pop → s.pc.toNat = 255 → StepRaises s (.outOfRange 256))

/-- 44_stack.md R154, with the push sequence R150. The target is read after the push (decision D11). -/
def Obligations.CallPushesTheReturnAddressAndJumps : Prop :=
  encode defaultOpcodes .call = [0x0E] ∧
  (∀ s : State, s.pc.toNat + 1 ≤ 255 → ∃ t, exec .call s = .next t ∧
    ((t.reg 255).toNat : Int) = (((s.reg 255).toNat : Int) - 1) % 256 ∧
    (t.byteAt 255).toNat = s.pc.toNat + 1 ∧
    t.pc = (if s.cur = 255 then t.reg 255 else s.reg s.cur) ∧
    t.cur = s.cur ∧ t.eq = s.eq ∧ t.out = s.out ∧ KeptExcept [255] [255] s t) ∧
  (∀ s : State, AtOpcode s .call → step s = exec .call s) ∧
  (∀ s : State, AtOpcode s .call → s.pc.toNat = 255 → StepRaises s (.outOfRange 256))

/-- 44_stack.md R155, with the pop sequence R151. It completes at every address. -/
def Obligations.RetPopsTheProgramCounter : Prop :=
  encode defaultOpcodes .ret = [0x0F] ∧
  (∀ s : State, ∃ t, exec .ret s = .next t ∧
    t.pc = s.byteAt (s.reg 255).toNat ∧
    (s.cfg.popAdjustsSp = false → RegsKeptExcept [] s t) ∧
    (s.cfg.popAdjustsSp = true → (t.reg 255).toNat = ((s.reg 255).toNat + 1) % 256) ∧
    t.cur = s.cur ∧ t.eq = s.eq ∧ t.out = s.out ∧ KeptExcept [255] [] s t) ∧
  (∀ s : State, AtOpcode s .ret → step s = exec .ret s)

/-- 45_memory_access.md R170. -/
def Obligations.LdLoadsFromItsOperandAddress : Prop :=
  (∀ addr : Byte, encode defaultOpcodes (.ld addr) = [0x10, addr]) ∧
  (∀ (addr : Byte) (s : State), s.pc.toNat + 2 ≤ 255 → ∃ t, exec (.ld addr) s = .next t ∧
    t.reg s.cur = s.byteAt addr.toNat ∧ t.pc.toNat = s.pc.toNat + 2 ∧
    t.cur = s.cur ∧ t.eq = s.eq ∧ t.out = s.out ∧ KeptExcept [s.cur] [] s t) ∧
  (∀ s : State, AtOpcode s .ld → s.pc.toNat + 1 ≤ 255 →
    step s = exec (.ld (s.byteAt (s.pc.toNat + 1))) s) ∧
  (∀ s : State, AtOpcode s .ld → 254 ≤ s.pc.toNat → StepRaises s (.outOfRange 256))

/-- 45_memory_access.md R171. -/
def Obligations.StStoresToItsOperandAddress : Prop :=
  (∀ addr : Byte, encode defaultOpcodes (.st addr) = [0x11, addr]) ∧
  (∀ (addr : Byte) (s : State), s.pc.toNat + 2 ≤ 255 → ∃ t, exec (.st addr) s = .next t ∧
    t.byteAt addr.toNat = s.reg s.cur ∧ t.pc.toNat = s.pc.toNat + 2 ∧
    t.cur = s.cur ∧ t.eq = s.eq ∧ t.out = s.out ∧ KeptExcept [] [addr.toNat] s t) ∧
  (∀ s : State, AtOpcode s .st → s.pc.toNat + 1 ≤ 255 →
    step s = exec (.st (s.byteAt (s.pc.toNat + 1))) s) ∧
  (∀ s : State, AtOpcode s .st → 254 ≤ s.pc.toNat → StepRaises s (.outOfRange 256))

/-- 45_memory_access.md R172: `i` is the NUMBER `pc + 1`, and the second byte is not looked at (any pad
decodes to the same instruction). The literal reading is decision D23. -/
def Obligations.LdriLoadsThroughTheRegisterNumberedPcPlusOne : Prop :=
  (∀ pad : Byte, decode defaultOpcodes [0x12, pad] = .ok .ldri) ∧ Mnemonic.ldri.format.length = 2 ∧
  (∀ (s : State) (i : Byte), i.toNat = s.pc.toNat + 1 → s.pc.toNat + 2 ≤ 255 →
    ∃ t, exec .ldri s = .next t ∧
      t.reg s.cur = s.byteAt (s.reg i).toNat ∧ t.pc.toNat = s.pc.toNat + 2 ∧
      t.cur = s.cur ∧ t.eq = s.eq ∧ t.out = s.out ∧ KeptExcept [s.cur] [] s t) ∧
  (∀ s : State, AtOpcode s .ldri → step s = exec .ldri s) ∧
  (∀ s : State, AtOpcode s .ldri → 254 ≤ s.pc.toNat → StepRaises s (.outOfRange 256))

/-- 45_memory_access.md R173; the literal reading is decision D23. -/
def Obligations.StriStoresThroughTheRegisterNumberedPcPlusOne : Prop :=
  (∀ pad : Byte, decode defaultOpcodes [0x13, pad] = .ok .stri) ∧ Mnemonic.stri.format.length = 2 ∧
  (∀ (s : State) (i : Byte), i.toNat = s.pc.toNat + 1 → s.pc.toNat + 2 ≤ 255 →
    ∃ t, exec .stri s = .next t ∧
      t.byteAt (s.reg i).toNat = s.reg s.cur ∧ t.pc.toNat = s.pc.toNat + 2 ∧
      t.cur = s.cur ∧ t.eq = s.eq ∧ t.out = s.out ∧ KeptExcept [] [(s.reg i).toNat] s t) ∧
  (∀ s : State, AtOpcode s .stri → step s = exec .stri s) ∧
  (∀ s : State, AtOpcode s .stri → 254 ≤ s.pc.toNat → StepRaises s (.outOfRange 256))

/-- 46_compare_branch.md R180; the literal reading is decision D23. -/
def Obligations.JmpMovesToTheAddressAfterItsOpcode : Prop :=
  encode defaultOpcodes .jmp = [0x14] ∧
  (∀ s : State, s.pc.toNat + 1 ≤ 255 → ∃ t, exec .jmp s = .next t ∧
    t.pc.toNat = s.pc.toNat + 1 ∧ t.cur = s.cur ∧ t.eq = s.eq ∧ t.out = s.out ∧ KeptExcept [] [] s t) ∧
  (∀ s : State, AtOpcode s .jmp → step s = exec .jmp s) ∧
  (∀ s : State, AtOpcode s .jmp → s.pc.toNat = 255 → StepRaises s (.outOfRange 256))

/-- 46_compare_branch.md R181. -/
def Obligations.CmpSetsTheFlagFromTwoRegisters : Prop :=
  (∀ r : Byte, encode defaultOpcodes (.cmp r) = [0x15, r]) ∧
  (∀ (r : Byte) (s : State), s.pc.toNat + 2 ≤ 255 → ∃ t, exec (.cmp r) s = .next t ∧
    (s.reg s.cur = s.reg r → t.eq = .isTrue) ∧ (s.reg s.cur ≠ s.reg r → t.eq = .isFalse) ∧
    t.pc.toNat = s.pc.toNat + 2 ∧ t.cur = s.cur ∧ t.out = s.out ∧ KeptExcept [] [] s t) ∧
  (∀ s : State, AtOpcode s .cmp → s.pc.toNat + 1 ≤ 255 →
    step s = exec (.cmp (s.byteAt (s.pc.toNat + 1))) s) ∧
  (∀ s : State, AtOpcode s .cmp → 254 ≤ s.pc.toNat → StepRaises s (.outOfRange 256))

/-- 46_compare_branch.md R182, with CondEQ of R184: taken when the flag is true, not taken when it is
false or an unset flag reads as false, `UnsetFlag` when it is unset and the parameter says fault. The
target and the read on both paths are decisions D8 and D9, the two policies for an unset flag D7. -/
def Obligations.JeqJumpsWhenTheFlagIsTrue : Prop :=
  (∀ addr : Byte, encode defaultOpcodes (.jeq addr) = [0x16, addr]) ∧
  (∀ (addr : Byte) (s : State), s.eq = .isTrue → ∃ t, exec (.jeq addr) s = .next t ∧
    t.pc = addr ∧ t.cur = s.cur ∧ t.eq = s.eq ∧ t.out = s.out ∧ KeptExcept [] [] s t) ∧
  (∀ (addr : Byte) (s : State),
    (s.eq = .isFalse ∨ (s.eq = .unset ∧ s.cfg.unsetFlag = .asFalse)) → s.pc.toNat + 2 ≤ 255 →
    ∃ t, exec (.jeq addr) s = .next t ∧ t.pc.toNat = s.pc.toNat + 2 ∧
      t.cur = s.cur ∧ t.eq = s.eq ∧ t.out = s.out ∧ KeptExcept [] [] s t) ∧
  (∀ s : State, AtOpcode s .jeq → s.pc.toNat + 1 ≤ 255 →
    step s = exec (.jeq (s.byteAt (s.pc.toNat + 1))) s) ∧
  (∀ s : State, AtOpcode s .jeq → s.pc.toNat + 1 ≤ 255 → s.eq = .unset → s.cfg.unsetFlag = .fault →
    StepRaises s .unsetFlag) ∧
  (∀ s : State, AtOpcode s .jeq → s.pc.toNat = 254 →
    (s.eq = .isFalse ∨ (s.eq = .unset ∧ s.cfg.unsetFlag = .asFalse)) → StepRaises s (.outOfRange 256)) ∧
  (∀ s : State, AtOpcode s .jeq → s.pc.toNat = 255 → StepRaises s (.outOfRange 256))

/-- 46_compare_branch.md R183, with CondEQ of R184; decisions D7, D8 and D9 as for JEQ. -/
def Obligations.JneJumpsWhenTheFlagIsFalse : Prop :=
  (∀ addr : Byte, encode defaultOpcodes (.jne addr) = [0x17, addr]) ∧
  (∀ (addr : Byte) (s : State),
    (s.eq = .isFalse ∨ (s.eq = .unset ∧ s.cfg.unsetFlag = .asFalse)) →
    ∃ t, exec (.jne addr) s = .next t ∧
      t.pc = addr ∧ t.cur = s.cur ∧ t.eq = s.eq ∧ t.out = s.out ∧ KeptExcept [] [] s t) ∧
  (∀ (addr : Byte) (s : State), s.eq = .isTrue → s.pc.toNat + 2 ≤ 255 →
    ∃ t, exec (.jne addr) s = .next t ∧ t.pc.toNat = s.pc.toNat + 2 ∧
      t.cur = s.cur ∧ t.eq = s.eq ∧ t.out = s.out ∧ KeptExcept [] [] s t) ∧
  (∀ s : State, AtOpcode s .jne → s.pc.toNat + 1 ≤ 255 →
    step s = exec (.jne (s.byteAt (s.pc.toNat + 1))) s) ∧
  (∀ s : State, AtOpcode s .jne → s.pc.toNat + 1 ≤ 255 → s.eq = .unset → s.cfg.unsetFlag = .fault →
    StepRaises s .unsetFlag) ∧
  (∀ s : State, AtOpcode s .jne → s.pc.toNat = 254 → s.eq = .isTrue → StepRaises s (.outOfRange 256)) ∧
  (∀ s : State, AtOpcode s .jne → s.pc.toNat = 255 → StepRaises s (.outOfRange 256))

/-! ## Decoding and the step -/

/-- 40_cycle.md R97: a running core executes what its bytes at `pc` decode to. Nothing is added around
`exec`: it moves `pc` itself. That the bytes given to the decoder are exactly the cells `pc`, `pc + 1`,
`pc + 2` that exist is the model's choice, DEDUCED (log entry 8): R94 says that an instruction reads
exactly its own operand bytes. -/
def Obligations.StepRunsTheDecodedInstruction : Prop :=
  (∀ (s : State) (i : Instr), s.status = .running → decode s.cfg.opc (fetchBytes s) = .ok i →
    step s = exec i s) ∧
  (∀ (s : State) (k : Nat), k ≤ 2 → s.pc.toNat + k ≤ 255 →
    (fetchBytes s)[k]? = some (s.byteAt (s.pc.toNat + k))) ∧
  (∀ (s : State) (k : Nat), 2 < k ∨ 255 < s.pc.toNat + k → (fetchBytes s)[k]? = none)

/-- The encoding of an instruction placed at `pc`, with the bytes it reads inside memory, is what the
step runs; the skipped byte of LDRI and STRI may hold anything (log entries 4 and 8). -/
def Obligations.EncodedInstructionAtPcIsExecuted : Prop :=
  ∀ (s : State) (i : Instr), s.status = .running → s.cfg.opc.wf = true → i.fitsAt s.pc.toNat = true →
    (∀ (k : Nat) (b : Byte), k ≤ i.mnemonic.format.operandCount →
      (encode s.cfg.opc i)[k]? = some b → s.byteAt (s.pc.toNat + k) = b) →
    step s = exec i s

/-- Decode and encode agree for every instruction, every operand value and every injective opcode map,
whatever bytes follow (the pad byte the encoder writes is the model's choice, log entry 4). -/
def Obligations.DecodeOfEncodeIsTheInstruction : Prop :=
  ∀ (opc : OpcodeMap) (i : Instr) (rest : List Byte), opc.wf = true →
    decode opc (encode opc i ++ rest) = .ok i

/-- Bytes written out from 30_encoding.md R71 and R74 decode to the instructions they stand for. -/
def Obligations.WrittenOutWordsDecode : Prop :=
  decode defaultOpcodes [0b00000000] = .ok .halt ∧
  decode defaultOpcodes [0b00000010, 0b00001001] = .ok (.set 9) ∧
  decode defaultOpcodes [0b00000101, 0b00000011, 0b11111111] = .ok (.sub 3 255) ∧
  decode defaultOpcodes [0b00001000, 0b00010100] = .ok (.inc 0x14) ∧
  decode defaultOpcodes [0b00010001, 0b10000000] = .ok (.st 0x80) ∧
  decode defaultOpcodes [0b00010111, 0b00001010] = .ok (.jne 0x0A) ∧
  decode defaultOpcodes [0b00011000] = .error (.invalidOpcode 0x18) ∧
  decode defaultOpcodes [0b00000100, 0b00000000] = .error (.missingByte 2)

/-- 30_encoding.md R73: the lookup compares the whole byte, for every map of R75. -/
def Obligations.LookupFindsExactlyTheOpcode : Prop :=
  ∀ (opc : OpcodeMap) (b : Byte) (m : Mnemonic), opc.wf = true →
    (opc.mnemonicOf b = some m ↔ opc.byteOf m = b)

/-- 30_encoding.md R76: a byte that is no opcode raises InvalidOpcode when it is fetched, and with the
default map the invalid bytes are those from 0x18 on; operand bytes have no invalid values. -/
def Obligations.InvalidOpcodeRaises : Prop :=
  (∀ s : State, s.status = .running → (∀ m, s.cfg.opc.byteOf m ≠ s.byteAt s.pc.toNat) →
    StepRaises s (.invalidOpcode (s.byteAt s.pc.toNat))) ∧
  (∀ b : Byte, 0x18 ≤ b.toNat ↔ ∀ m, defaultOpcodes.byteOf m ≠ b) ∧
  (∀ (m : Mnemonic) (b1 b2 : Byte), ∃ i, decodeOperands m [b1, b2] = .ok i ∧ i.mnemonic = m)

/-! ## The machine as a whole -/

/-- 10_state.md R36: every piece of state right after construction. That `State.reset` is the
construction with the default parameters (00_scope.md R6, decisions D1, D6, D7) is the model's choice
(log entry 1). -/
def Obligations.ConstructionGivesTheResetValues : Prop :=
  (∀ cfg : Config,
    let s := State.construct cfg
    (∀ a, s.byteAt a = 0) ∧ (∀ i, s.reg i = 0) ∧ s.pc = 0 ∧ s.cur = 0 ∧ s.eq = .unset ∧
      s.status = .running ∧ s.err = none ∧ s.out = []) ∧
  State.reset = State.construct defaultConfig

/-- Every step from a state of the invariant ends in a state of the invariant: injective opcode map,
canonical memory inside 0..255, an error record exactly in the error state that names its `pc` and
opcode byte (the canonical form is the model's choice, log entry 3). -/
def Obligations.StepKeepsTheInvariant : Prop :=
  ∀ s t : State, s.Inv → step s = .next t → t.Inv

/-- The invariant holds at reset and after any construction with an injective map (the default parameters
at reset are log entry 1, the canonical form is log entry 3). -/
def Obligations.ConstructionMeetsTheInvariant : Prop :=
  State.reset.Inv ∧ ∀ cfg : Config, cfg.wf = true → (State.construct cfg).Inv

/-- No step stops with a fault or a refusal: every step has a next state (an error is an error entry,
60_exceptions.md R203; a halted core's step is log entry 7). -/
def Obligations.EveryStepAnswersANextState : Prop :=
  ∀ s : State, ∃ t, step s = .next t

/-- 40_cycle.md R91: a step request on a halted core changes nothing (decision D19, log entry 7). -/
def Obligations.HaltedCoreDoesNotChange : Prop :=
  ∀ s : State, s.isTerminal → step s = .next s

/-- 60_exceptions.md R203 (and R202's precision): a step of a running core that ends in the error state
is an error entry, with everything but the status and the record as before the step (decision D5; the
fields of the record are decision D13). -/
def Obligations.ErrorEntryChangesOnlyStatusAndRecord : Prop :=
  ∀ s t : State, s.status = .running → step s = .next t → t.status = .haltedError →
    ∃ e, ErrorEntered s t e

/-- 10_state.md R29: initial running; HALT gives halted_normal, a raised error halted_error, and nothing
leaves a halted state. -/
def Obligations.RunStateTransitions : Prop :=
  (∀ cfg : Config, (State.construct cfg).status = .running) ∧
  (∀ s : State, AtOpcode s .halt → ∃ t, step s = .next t ∧ t.status = .haltedNormal) ∧
  (∀ (s : State) (e : RaisedError), ∃ t, commit s (.error e) = .next t ∧ t.status = .haltedError) ∧
  (∀ s t : State, s.isTerminal → step s = .next t → t.status = s.status) ∧
  (∀ s t : State, s.status = .running → step s = .next t →
    t.status = .running ∨
    (t.status = .haltedNormal ∧ s.byteAt s.pc.toNat = s.cfg.opc.byteOf .halt) ∨
    (t.status = .haltedError ∧ ∃ e, ErrorEntered s t e))

/-- 10_state.md R31: the output list, held as state by decision D16, is only ever appended to, by one
event of PRN or PRA. -/
def Obligations.OutputIsOnlyAppendedTo : Prop :=
  State.reset.out = [] ∧
  ∀ s t : State, step s = .next t →
    t.out = s.out ∨
    (s.byteAt s.pc.toNat = s.cfg.opc.byteOf .prn ∧ t.out = s.out ++ [.dec (s.reg s.cur)]) ∨
    (s.byteAt s.pc.toNat = s.cfg.opc.byteOf .pra ∧ t.out = s.out ++ [.chr (s.reg s.cur)])

/-- 10_state.md R26: unset at reset, written only by CMP and never back to unset, and read only by JEQ
and JNE: any other instruction does the same whatever the flag holds (CMP overwrites it). -/
def Obligations.EqualFlagIsWrittenByCmpAndReadByJumps : Prop :=
  State.reset.eq = .unset ∧
  (∀ s t : State, step s = .next t → t.eq ≠ s.eq → s.byteAt s.pc.toNat = s.cfg.opc.byteOf .cmp) ∧
  (∀ (r : Byte) (s : State), s.pc.toNat + 2 ≤ 255 → ∃ t, exec (.cmp r) s = .next t ∧ t.eq ≠ .unset) ∧
  (∀ s t : State, step s = .next t → s.eq ≠ .unset → t.eq ≠ .unset) ∧
  (∀ (i : Instr) (s : State) (f : EqFlag),
    i.mnemonic ≠ .cmp → i.mnemonic ≠ .jeq → i.mnemonic ≠ .jne →
    ∃ t, exec i s = .next t ∧ exec i (s.setEq f) = .next (t.setEq f))

/-- 10_state.md R25: `cur` is written only by INIT and SET, and INC and DEC do the same whatever it
holds. -/
def Obligations.CurrentSelectorIsWrittenByInitAndSet : Prop :=
  State.reset.cur = 0 ∧
  (∀ s t : State, step s = .next t → t.cur ≠ s.cur →
    s.byteAt s.pc.toNat = s.cfg.opc.byteOf .init ∨ s.byteAt s.pc.toNat = s.cfg.opc.byteOf .set) ∧
  (∀ (r : Byte) (s : State) (c : Byte), ∃ t,
    exec (.inc r) s = .next t ∧ exec (.inc r) (s.setCur c) = .next (t.setCur c)) ∧
  (∀ (r : Byte) (s : State) (c : Byte), ∃ t,
    exec (.dec r) s = .next t ∧ exec (.dec r) (s.setCur c) = .next (t.setCur c))

/-- 20_memory.md R53, the column of written memory: a byte that a step changes is the operand address of
ST, the address in the register numbered `pc + 1` of STRI, or cell 255 of PUSH and CALL. -/
def Obligations.MemoryIsWrittenOnlyByStoresAndPushes : Prop :=
  ∀ (s t : State) (a : Nat), step s = .next t → t.byteAt a ≠ s.byteAt a →
    (s.byteAt s.pc.toNat = s.cfg.opc.byteOf .st ∧ a = (s.byteAt (s.pc.toNat + 1)).toNat) ∨
    (s.byteAt s.pc.toNat = s.cfg.opc.byteOf .stri ∧
      ∃ i : Byte, i.toNat = s.pc.toNat + 1 ∧ a = (s.reg i).toNat) ∨
    (s.byteAt s.pc.toNat = s.cfg.opc.byteOf .push ∧ a = 255) ∨
    (s.byteAt s.pc.toNat = s.cfg.opc.byteOf .call ∧ a = 255)

/-- 10_state.md R21, the column of written registers: a register that a step changes is `x[cur]`, the
operand register of INC and DEC, or the stack pointer of the stack instructions. -/
def Obligations.RegistersAreWrittenOnlyWhereTabled : Prop :=
  ∀ (s t : State) (i : Byte), step s = .next t → t.reg i ≠ s.reg i →
    ∃ m : Mnemonic, s.byteAt s.pc.toNat = s.cfg.opc.byteOf m ∧
      ((m ∈ [.save, .add, .sub, .mul, .div, .pop, .ld, .ldri] ∧ i = s.cur) ∨
       (m ∈ [.inc, .dec] ∧ i = s.byteAt (s.pc.toNat + 1)) ∨
       (m ∈ [.push, .call] ∧ i = 255) ∨
       (m ∈ [.pop, .ret] ∧ s.cfg.popAdjustsSp = true ∧ i = 255))

/-- 10_state.md R35: no step and no host operation on a core changes its parameters. -/
def Obligations.ParametersAreConstant : Prop :=
  (∀ s t : State, step s = .next t → t.cfg = s.cfg) ∧
  (∀ (h g : Session) (a v : Nat), poke h a v = some g → g.core.cfg = h.core.cfg) ∧
  (∀ (k : Nat) (h : Session), (hostRun k h).core.cfg = h.core.cfg) ∧
  (∀ (cfg : Config) (ps : List (Nat × Nat)) (h : Session), loadPokes cfg ps = some h → h.core.cfg = cfg) ∧
  (∀ (cfg : Config) (bs : List Nat) (h : Session), loadBytes cfg bs = some h → h.core.cfg = cfg)

/-- 42_arithmetic.md R120: the table of results, for all operand bytes (decisions D2 and D3; INC and DEC
are the source's). -/
def Obligations.ArithmeticLaw : Prop :=
  ∀ a b : Byte,
    (aluAdd a b).toNat = (a.toNat + b.toNat) % 256 ∧
    ((aluSub a b).toNat : Int) = ((a.toNat : Int) - (b.toNat : Int)) % 256 ∧
    (aluMul a b).toNat = (a.toNat * b.toNat) % 256 ∧
    (∀ r1 : Byte, b = 0 → aluDiv r1 a b = .error (.divisionByZero r1)) ∧
    (∀ r1 : Byte, b ≠ 0 → ∃ q, aluDiv r1 a b = .ok q ∧ q.toNat = a.toNat / b.toNat) ∧
    (aluAdd a 1).toNat = (a.toNat + 1) % 256 ∧
    ((aluSub a 1).toNat : Int) = ((a.toNat : Int) - 1) % 256

/-- 46_compare_branch.md R184, for both values of the parameter UNSET_FLAG (decision D7). -/
def Obligations.ConditionReadsTheFlag : Prop :=
  ∀ s : State,
    (s.eq = .isTrue → condEq s = .ok true) ∧ (s.eq = .isFalse → condEq s = .ok false) ∧
    (s.eq = .unset → s.cfg.unsetFlag = .fault → condEq s = .error .unsetFlag) ∧
    (s.eq = .unset → s.cfg.unsetFlag = .asFalse → condEq s = .ok false)

/-- 60_exceptions.md R200: the code of each error kind and the datum its record holds (decision D13). -/
def Obligations.ErrorCodesAndData : Prop :=
  (∀ op : Byte, (RaisedError.invalidOpcode op).code = 1 ∧ (RaisedError.invalidOpcode op).datum = some op.toNat) ∧
  (∀ r1 : Byte, (RaisedError.divisionByZero r1).code = 2 ∧ (RaisedError.divisionByZero r1).datum = some r1.toNat) ∧
  (∀ n : Nat, (RaisedError.outOfRange n).code = 3 ∧ (RaisedError.outOfRange n).datum = some n) ∧
  RaisedError.unsetFlag.code = 4 ∧ RaisedError.unsetFlag.datum = none

/-- 20_memory.md R52 (decision D4), with the read after write of R59. -/
def Obligations.MemoryAccessPrimitives : Prop :=
  ∀ (s : State) (a : Nat),
    (255 < a → memRead s a = .error (.outOfRange a)) ∧
    (a ≤ 255 → memRead s a = .ok (s.byteAt a)) ∧
    (∀ v : Nat, 255 < a → memWrite s a v = .error (.outOfRange a)) ∧
    (∀ v : Nat, a ≤ 255 → 255 < v → memWrite s a v = .error (.outOfRange v)) ∧
    (∀ v : Nat, a ≤ 255 → v ≤ 255 → ∃ t, memWrite s a v = .ok t ∧ (t.byteAt a).toNat = v ∧
      MemKeptExcept [a] s t ∧ t.x = s.x ∧ t.pc = s.pc ∧ t.cur = s.cur ∧ t.eq = s.eq ∧
      t.status = s.status ∧ t.err = s.err ∧ t.out = s.out ∧ t.cfg = s.cfg)

/-! ## Consequences the spec states -/

/-- 44_stack.md R156 item 1: a PUSH from stack pointer 0 and a later POP, with register 255 and cell 255
as the PUSH left them, give the pushed value; the pointer is back at 0 with POP_ADJUSTS_SP and stays FF
without. -/
def Obligations.PopAfterPushReturnsTheValue : Prop :=
  ∀ s t u : State, exec .push s = .next t → s.pc.toNat + 1 ≤ 255 → s.reg 255 = 0 → s.cur ≠ 255 →
    u.reg 255 = t.reg 255 → u.byteAt 255 = t.byteAt 255 → u.pc.toNat + 1 ≤ 255 → u.cur ≠ 255 →
    ∃ w, exec .pop u = .next w ∧ w.reg u.cur = s.reg s.cur ∧
      (u.cfg.popAdjustsSp = true → w.reg 255 = 0) ∧ (u.cfg.popAdjustsSp = false → w.reg 255 = 255)

/-- 44_stack.md R156 item 2: RET returns to the address after the CALL when the stack pointer is FF and
cell 255 is as the CALL left it; a CALL from stack pointer 0 leaves the pointer at FF. -/
def Obligations.RetAfterCallReturns : Prop :=
  ∀ s t : State, exec .call s = .next t → s.pc.toNat + 1 ≤ 255 →
    (s.reg 255 = 0 → t.reg 255 = 255) ∧
    (∀ u : State, u.reg 255 = 255 → u.byteAt 255 = t.byteAt 255 →
      ∃ w, exec .ret u = .next w ∧ w.pc.toNat = s.pc.toNat + 1)

/-- 20_memory.md R62, 70_reset_and_hazards.md R226: a store is seen by the next fetch of that byte. An ST
to the address after itself makes the stored byte the next opcode; an ST over its own operand completes
as decoded. -/
def Obligations.StoredByteIsTheNextOpcodeFetched : Prop :=
  ∀ s t : State, AtOpcode s .st → s.pc.toNat + 2 ≤ 255 → step s = .next t →
    ((s.byteAt (s.pc.toNat + 1)).toNat = s.pc.toNat + 2 → (fetchBytes t)[0]? = some (s.reg s.cur)) ∧
    ((s.byteAt (s.pc.toNat + 1)).toNat = s.pc.toNat + 1 → t.byteAt (s.pc.toNat + 1) = s.reg s.cur ∧
      (fetchBytes t)[0]? = some (s.byteAt (s.pc.toNat + 2)))

/-! ## Runs and the host interface -/

/-- A run never moves a halted core (40_cycle.md R91, 60_exceptions.md R204, log entry 7). -/
def Obligations.RunOfAHaltedCoreStays : Prop :=
  ∀ (k : Nat) (s : State), s.isTerminal → Sys2Proof.core.run k s = .next s

/-- Over every run from a state of the invariant: the invariant holds at its end, the parameters are the
same, and the output is the earlier output with at most one new event a step (the canonical form in the
invariant is log entry 3). -/
def Obligations.RunKeepsInvariantParametersAndOutput : Prop :=
  ∀ (k : Nat) (s t : State), s.Inv → Sys2Proof.core.run k s = .next t →
    t.Inv ∧ t.cfg = s.cfg ∧ ∃ es, t.out = s.out ++ es ∧ es.length ≤ k

/-- 60_exceptions.md R204: an error is final. A run that is safe is safe after fewer steps too. -/
def Obligations.SafeRunsHaveSafeBeginnings : Prop :=
  ∀ (k n : Nat) (s : State), SafeRun (k + n) s → SafeRun k s

/-- 70_reset_and_hazards.md R224, 40_cycle.md R102: a byte sequence of at most 256 bytes loads at the
addresses from 0 of a core otherwise as constructed, every other cell 0; any other sequence is refused
(decisions D15 and D30). The clause on the canonical form of memory and the clause on the count of steps
are the model's choices (log entries 3 and 9). -/
def Obligations.LoadedBytesAreTheLaunchMemory : Prop :=
  (∀ (cfg : Config) (bs : List Nat), bs.length ≤ 256 → (∀ v ∈ bs, v ≤ 255) →
    ∃ h, loadBytes cfg bs = some h ∧ h.steps = 0 ∧ Memory.wf h.core.mem = true ∧
      (∀ (k v : Nat), bs[k]? = some v → (h.core.byteAt k).toNat = v) ∧
      (∀ k, bs.length ≤ k → h.core.byteAt k = 0) ∧
      h.core = { State.construct cfg with mem := h.core.mem }) ∧
  (∀ (cfg : Config) (bs : List Nat), (256 < bs.length ∨ ∃ v ∈ bs, 255 < v) → loadBytes cfg bs = none)

/-- 40_cycle.md R101, R102: a poke writes one cell before the first step and is refused after it or out
of range (decisions D14 and D15; the session is log entry 9). -/
def Obligations.PokeWritesOneCellBeforeTheFirstStep : Prop :=
  ∀ (h : Session) (a v : Nat),
    (h.steps = 0 → a ≤ 255 → v ≤ 255 → ∃ g, poke h a v = some g ∧ g.steps = 0 ∧
      (g.core.byteAt a).toNat = v ∧ MemKeptExcept [a] h.core g.core ∧
      g.core = { h.core with mem := g.core.mem }) ∧
    (h.steps ≠ 0 ∨ 255 < a ∨ 255 < v → poke h a v = none)

/-- 40_cycle.md R98, R91: a step request on a running core is one step, whatever it ends in; on a halted
core it changes nothing (decisions D28 and D19; the session is log entry 9). -/
def Obligations.EveryStepCountsOnce : Prop :=
  (∀ h : Session, h.core.status = .running →
    (hostStep h).steps = h.steps + 1 ∧ step h.core = .next (hostStep h).core) ∧
  (∀ h : Session, h.core.isTerminal → hostStep h = h)

/-- 43_output.md R143: what the sink shows. The line separator 0x0A and the digits' codes 48 to 57 are
general knowledge, the model's PRESUMED choice (log entry 6). -/
def Obligations.EventsRenderAsDecimalLinesAndCharacters : Prop :=
  (∀ v : Byte, (OutEvent.chr v).render = [v.toNat]) ∧
  (∀ v : Byte, ∃ ds : List Nat, (OutEvent.dec v).render = ds.map (48 + ·) ++ [0x0A] ∧
    (∀ d ∈ ds, d ≤ 9) ∧ ds.foldl (fun n d => 10 * n + d) 0 = v.toNat ∧
    (ds = [0] ∨ ds.head? ≠ some 0) ∧ ds ≠ []) ∧
  (∀ es fs : List OutEvent, render (es ++ fs) = render es ++ render fs)
end

