-- ==== Sys2Proof/Laws/Memory.lean ====
section
/-! SUPPORT. Memory as data: read after write, and every memory operation keeps the canonical form. -/

namespace Sys2Proof.Machine

theorem Memory.read_eraseCell_same (m : Memory) (a : Nat) :
    Memory.read (Memory.eraseCell m a) a = memoryFill := by
  induction m with
  | nil => rfl
  | cons c m ih =>
    obtain ⟨k, w⟩ := c
    by_cases h : k = a
    · simpa [Memory.eraseCell, h] using ih
    · simpa [Memory.eraseCell, h, Memory.read] using ih

theorem Memory.read_eraseCell_other (m : Memory) {a b : Nat} (h : b ≠ a) :
    Memory.read (Memory.eraseCell m a) b = Memory.read m b := by
  induction m with
  | nil => rfl
  | cons c m ih =>
    obtain ⟨k, w⟩ := c
    by_cases hk : k = a
    · subst hk
      simpa [Memory.eraseCell, Memory.read, Ne.symm h] using ih
    · by_cases hb : k = b
      · simp [Memory.eraseCell, Memory.read, hb, h]
      · simpa [Memory.eraseCell, Memory.read, hk, hb] using ih

/-- Erasing cell `a` leaves no pair of address `a`. -/
theorem Memory.mem_eraseCell {m : Memory} {a : Nat} {c : Host.Cell}
    (h : c ∈ Memory.eraseCell m a) : c ∈ m ∧ c.1 ≠ a := by
  simpa [Memory.eraseCell] using h

theorem Memory.read_insertCell_same (m : Memory) {a : Nat} (v : Byte) (h : ∀ c ∈ m, c.1 ≠ a) :
    Memory.read (Memory.insertCell a v m) a = v := by
  induction m with
  | nil => simp [Memory.insertCell, Memory.read]
  | cons c m ih =>
    obtain ⟨k, w⟩ := c
    have hk : k ≠ a := h (k, w) (by simp)
    have hm : ∀ d ∈ m, d.1 ≠ a := fun d hd => h d (List.mem_cons_of_mem _ hd)
    by_cases hlt : a < k
    · simp [Memory.insertCell, hlt, Memory.read]
    · simpa [Memory.insertCell, hlt, Memory.read, hk] using ih hm

theorem Memory.read_insertCell_other (m : Memory) {a b : Nat} (v : Byte) (h : b ≠ a) :
    Memory.read (Memory.insertCell a v m) b = Memory.read m b := by
  induction m with
  | nil => simp [Memory.insertCell, Memory.read, Ne.symm h]
  | cons c m ih =>
    obtain ⟨k, w⟩ := c
    by_cases hlt : a < k
    · simp [Memory.insertCell, hlt, Memory.read, Ne.symm h]
    · simp [Memory.insertCell, hlt, Memory.read, ih]

/-- A read after a write to the same address gives the byte written. -/
theorem Memory.read_write_same (m : Memory) (a : Nat) (v : Byte) :
    Memory.read (Memory.write m a v) a = v := by
  unfold Memory.write
  split
  · rename_i h
    simpa [h] using Memory.read_eraseCell_same m a
  · exact Memory.read_insertCell_same _ v fun c hc => (Memory.mem_eraseCell hc).2

/-- A write leaves every other address alone. -/
theorem Memory.read_write_other (m : Memory) {a b : Nat} (v : Byte) (h : b ≠ a) :
    Memory.read (Memory.write m a v) b = Memory.read m b := by
  unfold Memory.write
  split
  · exact Memory.read_eraseCell_other m h
  · rw [Memory.read_insertCell_other _ v h, Memory.read_eraseCell_other m h]

/-! ## The canonical form -/

/-- The canonical form as propositions. -/
theorem Memory.wf_iff (m : Memory) :
    Memory.wf m = true ↔ (m.Pairwise fun c d => c.1 < d.1) ∧ ∀ c ∈ m, c.1 ≤ 255 ∧ c.2 ≠ memoryFill := by
  simp [Memory.wf]

theorem Memory.wf_nil : Memory.wf [] = true := rfl

theorem Memory.mem_insertCell {m : Memory} {a : Nat} {v : Byte} {c : Host.Cell}
    (h : c ∈ Memory.insertCell a v m) : c = (a, v) ∨ c ∈ m := by
  induction m with
  | nil => simpa [Memory.insertCell] using h
  | cons d m ih =>
    by_cases hlt : a < d.1
    · simpa [Memory.insertCell, hlt] using h
    · rcases List.mem_cons.mp (by simpa [Memory.insertCell, hlt] using h) with hc | hc
      · exact .inr (by simp [hc])
      · exact (ih hc).imp_right (List.mem_cons_of_mem d)

theorem Memory.pairwise_insertCell {m : Memory} {a : Nat} (v : Byte)
    (hs : m.Pairwise fun c d => c.1 < d.1) (ha : ∀ c ∈ m, c.1 ≠ a) :
    (Memory.insertCell a v m).Pairwise fun c d => c.1 < d.1 := by
  induction m with
  | nil => simp [Memory.insertCell]
  | cons d m ih =>
    obtain ⟨hd, hm⟩ := List.pairwise_cons.mp hs
    have hda : d.1 ≠ a := ha d (by simp)
    by_cases hlt : a < d.1
    · simp only [Memory.insertCell, hlt, if_true]
      refine List.pairwise_cons.mpr ⟨fun c hc => ?_, hs⟩
      rcases List.mem_cons.mp hc with rfl | hc
      · exact hlt
      · exact lt_trans hlt (hd c hc)
    · simp only [Memory.insertCell, hlt, if_false]
      refine List.pairwise_cons.mpr ⟨fun c hc => ?_, ih hm fun c hc => ha c (List.mem_cons_of_mem d hc)⟩
      rcases Memory.mem_insertCell hc with rfl | hc
      · show d.1 < a
        omega
      · exact hd c hc

/-- A write inside 0..255 keeps the canonical form. -/
theorem Memory.wf_write {m : Memory} {a : Nat} (v : Byte) (h : Memory.wf m = true) (ha : a ≤ 255) :
    Memory.wf (Memory.write m a v) = true := by
  obtain ⟨hs, hc⟩ := (Memory.wf_iff m).mp h
  have hes : (Memory.eraseCell m a).Pairwise fun c d => c.1 < d.1 := hs.filter _
  refine (Memory.wf_iff _).mpr ?_
  unfold Memory.write
  split
  · exact ⟨hes, fun c hm => hc c (Memory.mem_eraseCell hm).1⟩
  · rename_i hv
    refine ⟨Memory.pairwise_insertCell v hes fun c hm => (Memory.mem_eraseCell hm).2, fun c hm => ?_⟩
    rcases Memory.mem_insertCell hm with rfl | hm
    · exact ⟨ha, hv⟩
    · exact hc c (Memory.mem_eraseCell hm).1

/-- An address no pair lists reads as the fill value. -/
theorem Memory.read_unlisted {m : Memory} {a : Nat} (h : ∀ c ∈ m, c.1 ≠ a) : Memory.read m a = memoryFill := by
  induction m with
  | nil => rfl
  | cons c m ih =>
    obtain ⟨k, w⟩ := c
    have hk : k ≠ a := h (k, w) (by simp)
    simpa [Memory.read, hk] using ih fun d hd => h d (List.mem_cons_of_mem _ hd)

/-- Canonical memories that read the same are the same list. -/
theorem Memory.ext_of_wf {m n : Memory} (hm : Memory.wf m = true) (hn : Memory.wf n = true)
    (h : ∀ a, Memory.read m a = Memory.read n a) : m = n := by
  obtain ⟨sm, cm⟩ := (Memory.wf_iff m).mp hm
  obtain ⟨sn, cn⟩ := (Memory.wf_iff n).mp hn
  clear hm hn
  induction m generalizing n with
  | nil =>
    cases n with
    | nil => rfl
    | cons d n =>
      have := h d.1
      simp only [Memory.read] at this
      exact absurd this.symm (cn d (by simp)).2
  | cons c m ih =>
    cases n with
    | nil =>
      have := h c.1
      simp only [Memory.read] at this
      exact absurd this (cm c (by simp)).2
    | cons d n =>
      obtain ⟨hc, sm'⟩ := List.pairwise_cons.mp sm
      obtain ⟨hd, sn'⟩ := List.pairwise_cons.mp sn
      obtain ⟨k, v⟩ := c
      obtain ⟨l, w⟩ := d
      have unl : ∀ {x : Nat} {m' : Memory}, (∀ e ∈ m', x < e.1) → Memory.read m' x = memoryFill :=
        fun hx => Memory.read_unlisted fun e he => Nat.ne_of_gt (hx e he)
      have hkl : k = l := by
        by_contra hne
        rcases Nat.lt_or_gt_of_ne hne with hlt | hgt
        · have h1 := h k
          rw [show Memory.read ((l, w) :: n) k = memoryFill from
            unl fun e he => by
              rcases List.mem_cons.mp he with rfl | he
              · exact hlt
              · exact lt_trans hlt (hd e he)] at h1
          simp only [Memory.read, if_true] at h1
          exact (cm (k, v) (by simp)).2 h1
        · have h1 := h l
          rw [show Memory.read ((k, v) :: m) l = memoryFill from
            unl fun e he => by
              rcases List.mem_cons.mp he with rfl | he
              · exact hgt
              · exact lt_trans hgt (hc e he)] at h1
          simp only [Memory.read, if_true] at h1
          exact (cn (l, w) (by simp)).2 h1.symm
      subst hkl
      have hvw : v = w := by simpa [Memory.read] using h k
      subst hvw
      congr 1
      refine ih (fun a => ?_) sm' (fun e he => cm e (by simp [he])) sn' (fun e he => cn e (by simp [he]))
      by_cases ha : k = a
      · subst ha
        rw [unl hc, unl hd]
      · simpa [Memory.read, ha] using h a

/-! ## The state's memory operations -/

@[simp] theorem State.byteAt_setByte_same (s : State) (a : Nat) (v : Byte) : (s.setByte a v).byteAt a = v :=
  Memory.read_write_same s.mem a v

theorem State.byteAt_setByte_other (s : State) {a b : Nat} (v : Byte) (h : b ≠ a) :
    (s.setByte a v).byteAt b = s.byteAt b :=
  Memory.read_write_other s.mem v h

theorem State.byteAt_setByte (s : State) (a : Nat) (v : Byte) (b : Nat) :
    (s.setByte a v).byteAt b = if b = a then v else s.byteAt b := by
  by_cases h : b = a
  · simp [h]
  · simp [h, s.byteAt_setByte_other v h]

theorem State.wf_setByte {s : State} {a : Nat} (v : Byte) (h : Memory.wf s.mem = true) (ha : a ≤ 255) :
    Memory.wf (s.setByte a v).mem = true :=
  Memory.wf_write v h ha

theorem memWrite_wf {s t : State} {a v : Nat} (h : memWrite s a v = .ok t) (hs : Memory.wf s.mem = true) :
    Memory.wf t.mem = true := by
  unfold memWrite at h
  split at h
  · cases h
  · split at h
    · cases h
    · cases h
      exact State.wf_setByte _ hs (by omega)

theorem State.wf_storeBytes (bs : List Byte) : ∀ {s : State} (a : Nat), Memory.wf s.mem = true →
    Memory.wf (s.storeBytes a bs).mem = true := by
  induction bs with
  | nil => exact fun _ h => h
  | cons b bs ih =>
    intro s a h
    unfold State.storeBytes
    split
    · exact h
    · exact ih (a + 1) (State.wf_setByte b h (by omega))

theorem wf_applyPokes (ps : List (Nat × Nat)) : ∀ {s : State}, pokesWf ps = true → Memory.wf s.mem = true →
    Memory.wf (applyPokes s ps).mem = true := by
  induction ps with
  | nil => exact fun _ h => h
  | cons p ps ih =>
    intro s hp h
    obtain ⟨hp1, hps⟩ : pokeWf p = true ∧ pokesWf ps = true := by simpa [pokesWf] using hp
    have ha : p.1 ≤ 255 := by
      simp only [pokeWf, Bool.and_eq_true, decide_eq_true_eq] at hp1
      exact hp1.1
    exact ih hps (State.wf_setByte _ h ha)

/-- Memory right after construction is canonical. -/
theorem construct_mem_wf (cfg : Config) : Memory.wf (State.construct cfg).mem = true := rfl

theorem reset_mem_wf : Memory.wf State.reset.mem = true := rfl

end Sys2Proof.Machine
end

