-- ==== Sys2Proof/Laws/State.lean ====
section
/-! SUPPORT. What each update of the state does to each field: one lemma per field per update, and the
register file's read after write. -/

namespace Sys2Proof.Machine

/-! ### `setReg` -/

@[simp] theorem State.setReg_mem (s : State) (i v : Byte) : (s.setReg i v).mem = s.mem := rfl
@[simp] theorem State.setReg_pc (s : State) (i v : Byte) : (s.setReg i v).pc = s.pc := rfl
@[simp] theorem State.setReg_cur (s : State) (i v : Byte) : (s.setReg i v).cur = s.cur := rfl
@[simp] theorem State.setReg_eq (s : State) (i v : Byte) : (s.setReg i v).eq = s.eq := rfl
@[simp] theorem State.setReg_status (s : State) (i v : Byte) : (s.setReg i v).status = s.status := rfl
@[simp] theorem State.setReg_err (s : State) (i v : Byte) : (s.setReg i v).err = s.err := rfl
@[simp] theorem State.setReg_out (s : State) (i v : Byte) : (s.setReg i v).out = s.out := rfl
@[simp] theorem State.setReg_cfg (s : State) (i v : Byte) : (s.setReg i v).cfg = s.cfg := rfl
@[simp] theorem State.setReg_byteAt (s : State) (i v : Byte) (b : Nat) : (s.setReg i v).byteAt b = s.byteAt b := rfl

/-! ### `setByte` -/

@[simp] theorem State.setByte_mem (s : State) (a : Nat) (v : Byte) : (s.setByte a v).mem = Memory.write s.mem a v := rfl
@[simp] theorem State.setByte_x (s : State) (a : Nat) (v : Byte) : (s.setByte a v).x = s.x := rfl
@[simp] theorem State.setByte_pc (s : State) (a : Nat) (v : Byte) : (s.setByte a v).pc = s.pc := rfl
@[simp] theorem State.setByte_cur (s : State) (a : Nat) (v : Byte) : (s.setByte a v).cur = s.cur := rfl
@[simp] theorem State.setByte_eq (s : State) (a : Nat) (v : Byte) : (s.setByte a v).eq = s.eq := rfl
@[simp] theorem State.setByte_status (s : State) (a : Nat) (v : Byte) : (s.setByte a v).status = s.status := rfl
@[simp] theorem State.setByte_err (s : State) (a : Nat) (v : Byte) : (s.setByte a v).err = s.err := rfl
@[simp] theorem State.setByte_out (s : State) (a : Nat) (v : Byte) : (s.setByte a v).out = s.out := rfl
@[simp] theorem State.setByte_cfg (s : State) (a : Nat) (v : Byte) : (s.setByte a v).cfg = s.cfg := rfl
@[simp] theorem State.setByte_reg (s : State) (a : Nat) (v : Byte) (j : Byte) : (s.setByte a v).reg j = s.reg j := rfl

/-! ### `setPc` -/

@[simp] theorem State.setPc_mem (s : State) (p : Byte) : (s.setPc p).mem = s.mem := rfl
@[simp] theorem State.setPc_x (s : State) (p : Byte) : (s.setPc p).x = s.x := rfl
@[simp] theorem State.setPc_pc (s : State) (p : Byte) : (s.setPc p).pc = p := rfl
@[simp] theorem State.setPc_cur (s : State) (p : Byte) : (s.setPc p).cur = s.cur := rfl
@[simp] theorem State.setPc_eq (s : State) (p : Byte) : (s.setPc p).eq = s.eq := rfl
@[simp] theorem State.setPc_status (s : State) (p : Byte) : (s.setPc p).status = s.status := rfl
@[simp] theorem State.setPc_err (s : State) (p : Byte) : (s.setPc p).err = s.err := rfl
@[simp] theorem State.setPc_out (s : State) (p : Byte) : (s.setPc p).out = s.out := rfl
@[simp] theorem State.setPc_cfg (s : State) (p : Byte) : (s.setPc p).cfg = s.cfg := rfl
@[simp] theorem State.setPc_reg (s : State) (p : Byte) (j : Byte) : (s.setPc p).reg j = s.reg j := rfl
@[simp] theorem State.setPc_byteAt (s : State) (p : Byte) (b : Nat) : (s.setPc p).byteAt b = s.byteAt b := rfl

/-! ### `setCur` -/

@[simp] theorem State.setCur_mem (s : State) (c : Byte) : (s.setCur c).mem = s.mem := rfl
@[simp] theorem State.setCur_x (s : State) (c : Byte) : (s.setCur c).x = s.x := rfl
@[simp] theorem State.setCur_pc (s : State) (c : Byte) : (s.setCur c).pc = s.pc := rfl
@[simp] theorem State.setCur_cur (s : State) (c : Byte) : (s.setCur c).cur = c := rfl
@[simp] theorem State.setCur_eq (s : State) (c : Byte) : (s.setCur c).eq = s.eq := rfl
@[simp] theorem State.setCur_status (s : State) (c : Byte) : (s.setCur c).status = s.status := rfl
@[simp] theorem State.setCur_err (s : State) (c : Byte) : (s.setCur c).err = s.err := rfl
@[simp] theorem State.setCur_out (s : State) (c : Byte) : (s.setCur c).out = s.out := rfl
@[simp] theorem State.setCur_cfg (s : State) (c : Byte) : (s.setCur c).cfg = s.cfg := rfl
@[simp] theorem State.setCur_reg (s : State) (c : Byte) (j : Byte) : (s.setCur c).reg j = s.reg j := rfl
@[simp] theorem State.setCur_byteAt (s : State) (c : Byte) (b : Nat) : (s.setCur c).byteAt b = s.byteAt b := rfl

/-! ### `setEq` -/

@[simp] theorem State.setEq_mem (s : State) (f : EqFlag) : (s.setEq f).mem = s.mem := rfl
@[simp] theorem State.setEq_x (s : State) (f : EqFlag) : (s.setEq f).x = s.x := rfl
@[simp] theorem State.setEq_pc (s : State) (f : EqFlag) : (s.setEq f).pc = s.pc := rfl
@[simp] theorem State.setEq_cur (s : State) (f : EqFlag) : (s.setEq f).cur = s.cur := rfl
@[simp] theorem State.setEq_eq (s : State) (f : EqFlag) : (s.setEq f).eq = f := rfl
@[simp] theorem State.setEq_status (s : State) (f : EqFlag) : (s.setEq f).status = s.status := rfl
@[simp] theorem State.setEq_err (s : State) (f : EqFlag) : (s.setEq f).err = s.err := rfl
@[simp] theorem State.setEq_out (s : State) (f : EqFlag) : (s.setEq f).out = s.out := rfl
@[simp] theorem State.setEq_cfg (s : State) (f : EqFlag) : (s.setEq f).cfg = s.cfg := rfl
@[simp] theorem State.setEq_reg (s : State) (f : EqFlag) (j : Byte) : (s.setEq f).reg j = s.reg j := rfl
@[simp] theorem State.setEq_byteAt (s : State) (f : EqFlag) (b : Nat) : (s.setEq f).byteAt b = s.byteAt b := rfl

/-! ### `halt` -/

@[simp] theorem State.halt_mem (s : State) : s.halt.mem = s.mem := rfl
@[simp] theorem State.halt_x (s : State) : s.halt.x = s.x := rfl
@[simp] theorem State.halt_pc (s : State) : s.halt.pc = s.pc := rfl
@[simp] theorem State.halt_cur (s : State) : s.halt.cur = s.cur := rfl
@[simp] theorem State.halt_eq (s : State) : s.halt.eq = s.eq := rfl
@[simp] theorem State.halt_status (s : State) : s.halt.status = .haltedNormal := rfl
@[simp] theorem State.halt_err (s : State) : s.halt.err = s.err := rfl
@[simp] theorem State.halt_out (s : State) : s.halt.out = s.out := rfl
@[simp] theorem State.halt_cfg (s : State) : s.halt.cfg = s.cfg := rfl
@[simp] theorem State.halt_reg (s : State)  (j : Byte) : s.halt.reg j = s.reg j := rfl
@[simp] theorem State.halt_byteAt (s : State)  (b : Nat) : s.halt.byteAt b = s.byteAt b := rfl

/-! ### `emit` -/

@[simp] theorem State.emit_mem (s : State) (e : OutEvent) : (s.emit e).mem = s.mem := rfl
@[simp] theorem State.emit_x (s : State) (e : OutEvent) : (s.emit e).x = s.x := rfl
@[simp] theorem State.emit_pc (s : State) (e : OutEvent) : (s.emit e).pc = s.pc := rfl
@[simp] theorem State.emit_cur (s : State) (e : OutEvent) : (s.emit e).cur = s.cur := rfl
@[simp] theorem State.emit_eq (s : State) (e : OutEvent) : (s.emit e).eq = s.eq := rfl
@[simp] theorem State.emit_status (s : State) (e : OutEvent) : (s.emit e).status = s.status := rfl
@[simp] theorem State.emit_err (s : State) (e : OutEvent) : (s.emit e).err = s.err := rfl
@[simp] theorem State.emit_out (s : State) (e : OutEvent) : (s.emit e).out = s.out ++ [e] := rfl
@[simp] theorem State.emit_cfg (s : State) (e : OutEvent) : (s.emit e).cfg = s.cfg := rfl
@[simp] theorem State.emit_reg (s : State) (e : OutEvent) (j : Byte) : (s.emit e).reg j = s.reg j := rfl
@[simp] theorem State.emit_byteAt (s : State) (e : OutEvent) (b : Nat) : (s.emit e).byteAt b = s.byteAt b := rfl

/-! ### `enterError` -/

@[simp] theorem State.enterError_mem (s : State) (e : RaisedError) : (s.enterError e).mem = s.mem := rfl
@[simp] theorem State.enterError_x (s : State) (e : RaisedError) : (s.enterError e).x = s.x := rfl
@[simp] theorem State.enterError_pc (s : State) (e : RaisedError) : (s.enterError e).pc = s.pc := rfl
@[simp] theorem State.enterError_cur (s : State) (e : RaisedError) : (s.enterError e).cur = s.cur := rfl
@[simp] theorem State.enterError_eq (s : State) (e : RaisedError) : (s.enterError e).eq = s.eq := rfl
@[simp] theorem State.enterError_status (s : State) (e : RaisedError) : (s.enterError e).status = .haltedError := rfl
@[simp] theorem State.enterError_err (s : State) (e : RaisedError) : (s.enterError e).err = some { error := e, pc := s.pc, opcode := s.byteAt s.pc.toNat } := rfl
@[simp] theorem State.enterError_out (s : State) (e : RaisedError) : (s.enterError e).out = s.out := rfl
@[simp] theorem State.enterError_cfg (s : State) (e : RaisedError) : (s.enterError e).cfg = s.cfg := rfl
@[simp] theorem State.enterError_reg (s : State) (e : RaisedError) (j : Byte) : (s.enterError e).reg j = s.reg j := rfl
@[simp] theorem State.enterError_byteAt (s : State) (e : RaisedError) (b : Nat) : (s.enterError e).byteAt b = s.byteAt b := rfl

/-! ### Registers read after a write -/

@[simp] theorem State.reg_setReg_same (s : State) (i v : Byte) : (s.setReg i v).reg i = v := by
  simp [State.reg, State.setReg]

theorem State.reg_setReg_other (s : State) {i j : Byte} (v : Byte) (h : j ≠ i) :
    (s.setReg i v).reg j = s.reg j := by
  have hne : i.toNat ≠ j.toNat := fun e => h (BitVec.eq_of_toNat_eq e.symm)
  simp [State.reg, State.setReg, hne]

theorem State.reg_setReg (s : State) (i v j : Byte) :
    (s.setReg i v).reg j = if j = i then v else s.reg j := by
  by_cases h : j = i
  · simp [h]
  · simp [h, s.reg_setReg_other v h]

/-- The register file is its 256 readings. -/
theorem State.x_ext {s t : State} (h : ∀ i : Byte, t.reg i = s.reg i) : t.x = s.x := by
  apply Vector.ext
  intro k hk
  have hb := h (BitVec.ofNat 8 k)
  simpa [State.reg, BitVec.toNat_ofNat, Nat.mod_eq_of_lt hk] using hb

theorem State.setCurrent_def (s : State) (v : Byte) : s.setCurrent v = s.setReg s.cur v := rfl

theorem State.decrementSp_def (s : State) : s.decrementSp = s.setReg spIndex (s.reg spIndex - 1) := rfl

/-- What a pop does to the stack pointer, by the parameter (44_stack.md R151). -/
theorem State.adjustSpAfterPop_def (s : State) :
    s.adjustSpAfterPop = if s.cfg.popAdjustsSp then s.setReg spIndex (s.reg spIndex + 1) else s := rfl

/-! ### `setCurrent` -/

@[simp] theorem State.setCurrent_mem (s : State) (v : Byte) : (s.setCurrent v).mem = s.mem := rfl
@[simp] theorem State.setCurrent_pc (s : State) (v : Byte) : (s.setCurrent v).pc = s.pc := rfl
@[simp] theorem State.setCurrent_cur (s : State) (v : Byte) : (s.setCurrent v).cur = s.cur := rfl
@[simp] theorem State.setCurrent_eq (s : State) (v : Byte) : (s.setCurrent v).eq = s.eq := rfl
@[simp] theorem State.setCurrent_status (s : State) (v : Byte) : (s.setCurrent v).status = s.status := rfl
@[simp] theorem State.setCurrent_err (s : State) (v : Byte) : (s.setCurrent v).err = s.err := rfl
@[simp] theorem State.setCurrent_out (s : State) (v : Byte) : (s.setCurrent v).out = s.out := rfl
@[simp] theorem State.setCurrent_cfg (s : State) (v : Byte) : (s.setCurrent v).cfg = s.cfg := rfl

/-! ### `decrementSp` -/

@[simp] theorem State.decrementSp_mem (s : State) : s.decrementSp.mem = s.mem := rfl
@[simp] theorem State.decrementSp_pc (s : State) : s.decrementSp.pc = s.pc := rfl
@[simp] theorem State.decrementSp_cur (s : State) : s.decrementSp.cur = s.cur := rfl
@[simp] theorem State.decrementSp_eq (s : State) : s.decrementSp.eq = s.eq := rfl
@[simp] theorem State.decrementSp_status (s : State) : s.decrementSp.status = s.status := rfl
@[simp] theorem State.decrementSp_err (s : State) : s.decrementSp.err = s.err := rfl
@[simp] theorem State.decrementSp_out (s : State) : s.decrementSp.out = s.out := rfl
@[simp] theorem State.decrementSp_cfg (s : State) : s.decrementSp.cfg = s.cfg := rfl

/-! ### `adjustSpAfterPop` -/

@[simp] theorem State.adjustSpAfterPop_mem (s : State) : s.adjustSpAfterPop.mem = s.mem := by
  unfold State.adjustSpAfterPop
  split <;> rfl

@[simp] theorem State.adjustSpAfterPop_pc (s : State) : s.adjustSpAfterPop.pc = s.pc := by
  unfold State.adjustSpAfterPop
  split <;> rfl

@[simp] theorem State.adjustSpAfterPop_cur (s : State) : s.adjustSpAfterPop.cur = s.cur := by
  unfold State.adjustSpAfterPop
  split <;> rfl

@[simp] theorem State.adjustSpAfterPop_eq (s : State) : s.adjustSpAfterPop.eq = s.eq := by
  unfold State.adjustSpAfterPop
  split <;> rfl

@[simp] theorem State.adjustSpAfterPop_status (s : State) : s.adjustSpAfterPop.status = s.status := by
  unfold State.adjustSpAfterPop
  split <;> rfl

@[simp] theorem State.adjustSpAfterPop_err (s : State) : s.adjustSpAfterPop.err = s.err := by
  unfold State.adjustSpAfterPop
  split <;> rfl

@[simp] theorem State.adjustSpAfterPop_out (s : State) : s.adjustSpAfterPop.out = s.out := by
  unfold State.adjustSpAfterPop
  split <;> rfl

@[simp] theorem State.adjustSpAfterPop_cfg (s : State) : s.adjustSpAfterPop.cfg = s.cfg := by
  unfold State.adjustSpAfterPop
  split <;> rfl
@[simp] theorem State.adjustSpAfterPop_byteAt (s : State) (a : Nat) :
    s.adjustSpAfterPop.byteAt a = s.byteAt a := by
  simp [State.byteAt]

theorem State.adjustSpAfterPop_reg (s : State) (j : Byte) :
    s.adjustSpAfterPop.reg j =
      if s.cfg.popAdjustsSp = true ∧ j = spIndex then s.reg spIndex + 1 else s.reg j := by
  rw [State.adjustSpAfterPop_def]
  by_cases hc : s.cfg.popAdjustsSp = true <;> simp [hc, State.reg_setReg]

@[simp] theorem State.setCurrent_byteAt (s : State) (v : Byte) (a : Nat) :
    (s.setCurrent v).byteAt a = s.byteAt a := rfl

@[simp] theorem State.decrementSp_byteAt (s : State) (a : Nat) : s.decrementSp.byteAt a = s.byteAt a := rfl

end Sys2Proof.Machine
end

