-- ==== Sys2Proof/Laws/Ops.lean ====
section
/-! SUPPORT. One lemma per shared operation: everything it can do. -/

namespace Sys2Proof.Machine

/-! ## Numbers and bytes -/

theorem byte_le (b : Byte) : b.toNat ≤ 255 := by
  have := b.isLt
  omega

theorem byte_of_toNat (b : Byte) : BitVec.ofNat 8 b.toNat = b := by simp

theorem toNat_byte_of_le {n : Nat} (h : n ≤ 255) : (BitVec.ofNat 8 n).toNat = n := by
  simp only [BitVec.toNat_ofNat]
  omega

/-! ## The primitives that can raise -/

theorem memRead_eq (s : State) (a : Nat) :
    memRead s a = if a ≤ 255 then .ok (s.byteAt a) else .error (.outOfRange a) := by
  unfold memRead
  split <;> split <;> first | rfl | omega

/-- A read of an address held in a byte cannot fail (20_memory.md R52). -/
theorem memRead_byte (s : State) (a : Byte) : memRead s a.toNat = .ok (s.byteAt a.toNat) := by
  simp [memRead_eq, byte_le]

theorem memWrite_eq (s : State) (a v : Nat) :
    memWrite s a v = if a ≤ 255 then if v ≤ 255 then .ok (s.setByte a (BitVec.ofNat 8 v))
      else .error (.outOfRange v) else .error (.outOfRange a) := by
  unfold memWrite
  by_cases ha : a ≤ 255 <;> by_cases hv : v ≤ 255 <;> simp [ha, hv, Nat.not_lt.mpr, Nat.not_le.mp]

/-- A write of a byte to an address held in a byte cannot fail (20_memory.md R52). -/
theorem memWrite_byte (s : State) (a v : Byte) : memWrite s a.toNat v.toNat = .ok (s.setByte a.toNat v) := by
  simp [memWrite_eq, byte_le]

theorem pushWrite_eq (s : State) (v : Nat) :
    pushWrite s v = if v ≤ 255 then .ok (s.setByte stackCell (BitVec.ofNat 8 v))
      else .error (.outOfRange v) := by
  simp [pushWrite, memWrite_eq, stackCell]

theorem popRead_eq (s : State) : popRead s = .ok (s.byteAt (s.reg spIndex).toNat) := memRead_byte s _

theorem regIndex_eq (i : Nat) :
    regIndex i = if i ≤ 255 then .ok (BitVec.ofNat 8 i) else .error (.outOfRange i) := by
  unfold regIndex
  split <;> split <;> first | rfl | omega

theorem indirectAddress_eq (s : State) :
    indirectAddress s = if s.pc.toNat + 1 ≤ 255 then .ok (s.reg (BitVec.ofNat 8 (s.pc.toNat + 1)))
      else .error (.outOfRange (s.pc.toNat + 1)) := by
  unfold indirectAddress
  rw [regIndex_eq]
  split <;> rfl

theorem jumpTo_eq (s : State) (t : Nat) :
    jumpTo s t = if t ≤ 255 then .ok (s.setPc (BitVec.ofNat 8 t)) else .error (.outOfRange t) := by
  unfold jumpTo
  split <;> split <;> first | rfl | omega

theorem advance_eq (s : State) (n : Nat) :
    advance s n = if s.pc.toNat + n ≤ 255 then .ok (s.setPc (BitVec.ofNat 8 (s.pc.toNat + n)))
      else .error (.outOfRange (s.pc.toNat + n)) :=
  jumpTo_eq s _

/-- Everything an advance that succeeds does: it moves `pc` inside memory and changes nothing else. -/
theorem advance_ok {s t : State} {n : Nat} (h : advance s n = .ok t) :
    s.pc.toNat + n ≤ 255 ∧ t = s.setPc (BitVec.ofNat 8 (s.pc.toNat + n)) := by
  rw [advance_eq] at h
  split at h
  · exact ⟨‹_›, by cases h; rfl⟩
  · cases h

theorem opnd_eq (s : State) (k : Nat) :
    opnd s k = if s.pc.toNat + k ≤ 255 then .ok (s.byteAt (s.pc.toNat + k))
      else .error (.outOfRange (s.pc.toNat + k)) :=
  memRead_eq s _

/-- `CondEQ()` by the flag and the parameter (46_compare_branch.md R184). -/
theorem condEq_cases (s : State) :
    (s.eq = .isTrue ∧ condEq s = .ok true) ∨ (s.eq = .isFalse ∧ condEq s = .ok false) ∨
    (s.eq = .unset ∧ s.cfg.unsetFlag = .asFalse ∧ condEq s = .ok false) ∨
    (s.eq = .unset ∧ s.cfg.unsetFlag = .fault ∧ condEq s = .error .unsetFlag) := by
  unfold condEq
  cases hq : s.eq with
  | isTrue => simp
  | isFalse => simp
  | unset => cases hu : s.cfg.unsetFlag <;> simp

/-! ## The transaction -/

@[simp] theorem commit_ok (s t : State) : commit s (.ok t) = .next t := rfl

@[simp] theorem commit_error (s : State) (e : RaisedError) : commit s (.error e) = .next (s.enterError e) := rfl

/-- A transaction ends in its effect or in the error entry (40_cycle.md R96). -/
theorem commit_cases {s t : State} {r : Except RaisedError State} (h : commit s r = .next t) :
    r = .ok t ∨ ∃ e, r = .error e ∧ t = s.enterError e := by
  cases r with
  | ok u => exact .inl (by simpa [commit] using h)
  | error e => exact .inr ⟨e, rfl, by simpa [commit] using h.symm⟩

/-- A transaction that ends with `Advance(n)`: the effect with `pc` moved, or the error entry from the
state before (40_cycle.md R95, R96). -/
theorem commit_advance_eq (s u : State) (n : Nat) :
    commit s (advance u n) = if u.pc.toNat + n ≤ 255 then .next (u.setPc (BitVec.ofNat 8 (u.pc.toNat + n)))
      else .next (s.enterError (.outOfRange (u.pc.toNat + n))) := by
  rw [advance_eq]
  split <;> rfl

end Sys2Proof.Machine
end

