-- ==== Sys2Proof/Laws/Decode.lean ====
section
/-! SUPPORT. The opcode map and the decoder: what a lookup and a decode can answer, and what the fetch
gives them. -/

namespace Sys2Proof

theorem Mnemonic.mem_all (m : Mnemonic) : m ∈ Mnemonic.all := by cases m <;> decide

/-- A mnemonic the lookup gives has the byte as its opcode, for any map. -/
theorem OpcodeMap.mnemonicOf_sound {opc : OpcodeMap} {b : Byte} {m : Mnemonic}
    (h : opc.mnemonicOf b = some m) : opc.byteOf m = b := by
  simpa using List.find?_some h

/-- The lookup gives nothing exactly when the byte is no opcode, for any map. -/
theorem OpcodeMap.mnemonicOf_none {opc : OpcodeMap} {b : Byte} :
    opc.mnemonicOf b = none ↔ ∀ m, opc.byteOf m ≠ b := by
  simp only [OpcodeMap.mnemonicOf, List.find?_eq_none, beq_iff_eq]
  exact ⟨fun h m => h m m.mem_all, fun h m _ => h m⟩

/-- An injective map gives each byte at most one mnemonic (30_encoding.md R75). -/
theorem OpcodeMap.byteOf_injective {opc : OpcodeMap} (h : opc.wf = true) {m n : Mnemonic}
    (e : opc.byteOf m = opc.byteOf n) : m = n :=
  List.inj_on_of_nodup_map (of_decide_eq_true h) m.mem_all n.mem_all e

theorem defaultOpcodes_wf : defaultOpcodes.wf = true := by decide

/-- A decode that answers an instruction has looked its opcode up. -/
theorem decode_ok {opc : OpcodeMap} {bs : List Byte} {i : Instr} (h : decode opc bs = .ok i) :
    ∃ op rest m, bs = op :: rest ∧ opc.mnemonicOf op = some m ∧ decodeOperands m rest = .ok i := by
  cases bs with
  | nil => cases h
  | cons op rest =>
    simp only [decode] at h
    split at h
    · cases h
    · exact ⟨op, rest, _, rfl, ‹_›, h⟩

theorem oneOperand_ok {mk : Byte → Instr} {bs : List Byte} {i : Instr} (h : oneOperand mk bs = .ok i) :
    ∃ b rest, bs = b :: rest ∧ i = mk b := by
  cases bs with
  | nil => cases h
  | cons b rest => exact ⟨b, rest, rfl, by cases h; rfl⟩

theorem twoOperands_ok {mk : Byte → Byte → Instr} {bs : List Byte} {i : Instr}
    (h : twoOperands mk bs = .ok i) : ∃ b0 b1 rest, bs = b0 :: b1 :: rest ∧ i = mk b0 b1 := by
  match bs, h with
  | b0 :: b1 :: rest, h => exact ⟨b0, b1, rest, rfl, by cases h; rfl⟩

/-- Operand decoding gives an instruction of the mnemonic it was asked for, whose operands are the first
bytes of the list. -/
theorem decodeOperands_ok {m : Mnemonic} {bs : List Byte} {i : Instr} (h : decodeOperands m bs = .ok i) :
    i.mnemonic = m ∧ ∃ rest, bs = i.operandBytes ++ rest := by
  cases m <;> simp only [decodeOperands] at h <;>
    first
    | (cases h; exact ⟨rfl, bs, rfl⟩)
    | (obtain ⟨b, rest, rfl, rfl⟩ := oneOperand_ok h; exact ⟨rfl, rest, rfl⟩)
    | (obtain ⟨b0, b1, rest, rfl, rfl⟩ := twoOperands_ok h; exact ⟨rfl, rest, rfl⟩)

end Sys2Proof

namespace Sys2Proof.Machine

/-- What a fetch gives: one, two or three bytes, by how far `pc` is from the end of memory. -/
theorem fetchBytes_eq (s : State) :
    fetchBytes s =
      if s.pc.toNat + 2 ≤ 255 then
        [s.byteAt s.pc.toNat, s.byteAt (s.pc.toNat + 1), s.byteAt (s.pc.toNat + 2)]
      else if s.pc.toNat + 1 ≤ 255 then [s.byteAt s.pc.toNat, s.byteAt (s.pc.toNat + 1)]
      else [s.byteAt s.pc.toNat] := by
  have h0 := byte_le s.pc
  by_cases h2 : s.pc.toNat + 2 ≤ 255
  · have h1 : s.pc.toNat + 1 ≤ 255 := by omega
    simp [fetchBytes, opnd_eq, h0, h1, h2, Except.toOption]
  · by_cases h1 : s.pc.toNat + 1 ≤ 255
    · simp [fetchBytes, opnd_eq, h0, h1, h2, Except.toOption]
    · simp [fetchBytes, opnd_eq, h0, h1, h2, Except.toOption]

/-- The first fetched byte is the opcode byte, at every `pc` (40_cycle.md R92). -/
theorem fetchBytes_cons (s : State) : ∃ rest, fetchBytes s = s.byteAt s.pc.toNat :: rest := by
  rw [fetchBytes_eq]
  split
  · exact ⟨_, rfl⟩
  · split <;> exact ⟨_, rfl⟩

end Sys2Proof.Machine
end

