-- ==== Sys2Proof/Laws/Exec.lean ====
section
/-! SUPPORT. The meanings in closed form (no step of their pseudocode that cannot fail is left), and what
an executed instruction can change, said once for all 24. -/

namespace Sys2Proof.Machine

theorem next_inj {s t : State} (h : (.next s : StepOutcome) = .next t) : s = t := by injection h

/-! ## Closed forms -/

theorem exec_div_of_zero {s : State} {r0 r1 : Byte} (h : s.reg r1 = 0) :
    exec (.div r0 r1) s = .next (s.enterError (.divisionByZero r1)) := by
  show commit s _ = _
  simp [aluDiv, h, bind, Except.bind]

theorem exec_div_of_nonzero {s : State} {r0 r1 : Byte} (h : s.reg r1 ≠ 0) :
    exec (.div r0 r1) s =
      commit s (advance (s.setCurrent (BitVec.ofNat 8 ((s.reg r0).toNat / (s.reg r1).toNat))) 3) := by
  show commit s _ = _
  simp only [aluDiv, h, if_false, bind, Except.bind]

theorem exec_push_eq (s : State) :
    exec .push s = commit s (advance (s.decrementSp.setByte stackCell s.decrementSp.current) 1) := by
  show commit s _ = _
  simp [pushWrite_eq, byte_le, bind, Except.bind]

theorem exec_pop_eq (s : State) :
    exec .pop s =
      commit s (advance (s.setCurrent (s.byteAt (s.reg spIndex).toNat)).adjustSpAfterPop 1) := by
  show commit s _ = _
  simp only [popRead_eq, bind, Except.bind]

theorem exec_call_eq (s : State) :
    exec .call s =
      if s.pc.toNat + 1 ≤ 255 then
        .next ((s.decrementSp.setByte stackCell (BitVec.ofNat 8 (s.pc.toNat + 1))).setPc
          s.decrementSp.current)
      else .next (s.enterError (.outOfRange (s.pc.toNat + 1))) := by
  show commit s _ = _
  simp only [pushWrite_eq, bind, Except.bind]
  by_cases h : s.pc.toNat + 1 ≤ 255
  · simp only [h, if_true]
    rfl
  · simp only [h, if_false]
    rfl

theorem exec_ret_eq (s : State) :
    exec .ret s = .next (s.adjustSpAfterPop.setPc (s.byteAt (s.reg spIndex).toNat)) := by
  show commit s _ = _
  simp only [popRead_eq, bind, Except.bind]
  rfl

theorem exec_ld_eq (addr : Byte) (s : State) :
    exec (.ld addr) s = commit s (advance (s.setCurrent (s.byteAt addr.toNat)) 2) := by
  show commit s _ = _
  simp only [memRead_byte, bind, Except.bind]

theorem exec_st_eq (addr : Byte) (s : State) :
    exec (.st addr) s = commit s (advance (s.setByte addr.toNat s.current) 2) := by
  show commit s _ = _
  simp only [memWrite_byte, bind, Except.bind]

theorem exec_ldri_eq (s : State) :
    exec .ldri s =
      if s.pc.toNat + 1 ≤ 255 then
        commit s (advance
          (s.setCurrent (s.byteAt (s.reg (BitVec.ofNat 8 (s.pc.toNat + 1))).toNat)) 2)
      else .next (s.enterError (.outOfRange (s.pc.toNat + 1))) := by
  show commit s _ = _
  simp only [indirectAddress_eq, bind, Except.bind]
  by_cases h : s.pc.toNat + 1 ≤ 255
  · simp only [h, if_true, memRead_byte]
  · simp only [h, if_false]
    rfl

theorem exec_stri_eq (s : State) :
    exec .stri s =
      if s.pc.toNat + 1 ≤ 255 then
        commit s (advance (s.setByte (s.reg (BitVec.ofNat 8 (s.pc.toNat + 1))).toNat s.current) 2)
      else .next (s.enterError (.outOfRange (s.pc.toNat + 1))) := by
  show commit s _ = _
  simp only [indirectAddress_eq, bind, Except.bind]
  by_cases h : s.pc.toNat + 1 ≤ 255
  · simp only [h, if_true, memWrite_byte]
  · simp only [h, if_false]
    rfl

theorem exec_jeq_of_cond {s : State} {c : Bool} (h : condEq s = .ok c) (addr : Byte) :
    exec (.jeq addr) s = if c then .next (s.setPc addr) else commit s (advance s 2) := by
  show commit s _ = _
  cases c <;> simp [h, bind, Except.bind]

theorem exec_jne_of_cond {s : State} {c : Bool} (h : condEq s = .ok c) (addr : Byte) :
    exec (.jne addr) s = if c then commit s (advance s 2) else .next (s.setPc addr) := by
  show commit s _ = _
  cases c <;> simp [h, bind, Except.bind]

theorem exec_jeq_of_error {s : State} {e : RaisedError} (h : condEq s = .error e) (addr : Byte) :
    exec (.jeq addr) s = .next (s.enterError e) := by
  show commit s _ = _
  simp [h, bind, Except.bind]

theorem exec_jne_of_error {s : State} {e : RaisedError} (h : condEq s = .error e) (addr : Byte) :
    exec (.jne addr) s = .next (s.enterError e) := by
  show commit s _ = _
  simp [h, bind, Except.bind]

/-! ## What an instruction can change -/

/-- What holds between the state before and the state after an instruction that raises nothing. -/
structure Effect (i : Instr) (s t : State) : Prop where
  cfg : t.cfg = s.cfg
  err : t.err = s.err
  status : t.status = s.status ∨ (i = .halt ∧ t.status = .haltedNormal)
  cur : t.cur = s.cur ∨ i = .init ∨ ∃ imm, i = .set imm
  eq : t.eq = s.eq ∨ ((∃ r, i = .cmp r) ∧ t.eq ≠ .unset)
  out : t.out = s.out ∨ (i = .prn ∧ t.out = s.out ++ [.dec s.current]) ∨
    (i = .pra ∧ t.out = s.out ++ [.chr s.current])
  mem : t.mem = s.mem ∨ ∃ a v, t.mem = Memory.write s.mem a v ∧ a ≤ 255 ∧
    ((∃ addr : Byte, i = .st addr ∧ a = addr.toNat) ∨
     (i = .stri ∧ s.pc.toNat + 1 ≤ 255 ∧ a = (s.reg (BitVec.ofNat 8 (s.pc.toNat + 1))).toNat) ∨
     ((i = .push ∨ i = .call) ∧ a = stackCell))
  regs : ∀ j, t.reg j ≠ s.reg j →
    (i.mnemonic ∈ [.save, .add, .sub, .mul, .div, .pop, .ld, .ldri] ∧ j = s.cur) ∨
    (i = .inc j ∨ i = .dec j) ∨
    (i.mnemonic ∈ [.push, .call] ∧ j = spIndex) ∨
    (i.mnemonic ∈ [.pop, .ret] ∧ s.cfg.popAdjustsSp = true ∧ j = spIndex)

/-- `Advance` and setting `pc` add nothing to an effect. -/
theorem Effect.setPc {i : Instr} {s u : State} (h : Effect i s u) (p : Byte) : Effect i s (u.setPc p) :=
  { h with }

/-- Every register that a single register write changes is the one written. -/
theorem changed_setReg {s : State} {k v j : Byte} (h : (s.setReg k v).reg j ≠ s.reg j) : j = k := by
  by_contra hne
  exact h (s.reg_setReg_other v hne)

theorem effect_setCurrent {i : Instr} (s : State) (v : Byte)
    (hi : i.mnemonic ∈ [.save, .add, .sub, .mul, .div, .pop, .ld, .ldri]) : Effect i s (s.setCurrent v) :=
  { cfg := rfl, err := rfl, status := .inl rfl, cur := .inl rfl, eq := .inl rfl, out := .inl rfl
    mem := .inl rfl, regs := fun _ h => .inl ⟨hi, changed_setReg h⟩ }

theorem effect_refl (i : Instr) (s : State) : Effect i s s :=
  { cfg := rfl, err := rfl, status := .inl rfl, cur := .inl rfl, eq := .inl rfl, out := .inl rfl
    mem := .inl rfl, regs := fun _ h => absurd rfl h }

theorem effect_pop (s : State) (v : Byte) : Effect .pop s (s.setCurrent v).adjustSpAfterPop := by
  refine { cfg := by simp, err := by simp, status := .inl (by simp), cur := .inl (by simp), eq := .inl (by simp)
           out := .inl (by simp), mem := .inl (by simp), regs := fun j h => ?_ }
  rw [State.adjustSpAfterPop_reg] at h
  split at h
  · rename_i hc
    exact .inr (.inr (.inr ⟨by simp [Instr.mnemonic], hc⟩))
  · exact .inl ⟨by simp [Instr.mnemonic], changed_setReg h⟩

theorem effect_ret (s : State) : Effect .ret s s.adjustSpAfterPop := by
  refine { cfg := by simp, err := by simp, status := .inl (by simp), cur := .inl (by simp), eq := .inl (by simp)
           out := .inl (by simp), mem := .inl (by simp), regs := fun j h => ?_ }
  rw [State.adjustSpAfterPop_reg] at h
  split at h
  · rename_i hc
    exact .inr (.inr (.inr ⟨by simp [Instr.mnemonic], hc⟩))
  · exact absurd rfl h

theorem effect_pushed {i : Instr} (hi : i = .push ∨ i = .call) (s : State) (v : Byte) :
    Effect i s (s.decrementSp.setByte stackCell v) :=
  { cfg := rfl, err := rfl, status := .inl rfl, cur := .inl rfl, eq := .inl rfl, out := .inl rfl
    mem := .inr ⟨stackCell, v, rfl, le_refl _, .inr (.inr ⟨hi, rfl⟩)⟩
    regs := fun _ h => .inr (.inr (.inl ⟨by rcases hi with rfl | rfl <;> simp [Instr.mnemonic], changed_setReg h⟩)) }

/-- A transaction that ends with `Advance(n)` takes its effect with `pc` moved, or the error entry. -/
theorem commit_advance_effect {i : Instr} {s u : State} (n : Nat) (h : Effect i s u) :
    ∃ t, commit s (advance u n) = .next t ∧ ((∃ e, t = s.enterError e) ∨ Effect i s t) := by
  rw [commit_advance_eq]
  split
  · exact ⟨_, rfl, .inr (h.setPc _)⟩
  · exact ⟨_, rfl, .inl ⟨_, rfl⟩⟩

/-- Everything an instruction can do: the error entry from the state before it, or an effect. -/
theorem exec_cases (i : Instr) (s : State) :
    ∃ t, exec i s = .next t ∧ ((∃ e, t = s.enterError e) ∨ Effect i s t) := by
  cases i with
  | halt => exact ⟨_, rfl, .inr { effect_refl .halt s with status := .inr ⟨rfl, rfl⟩ }⟩
  | init => exact commit_advance_effect 1 { effect_refl .init s with cur := .inr (.inl rfl) }
  | set imm => exact commit_advance_effect 2 { effect_refl (.set imm) s with cur := .inr (.inr ⟨imm, rfl⟩) }
  | save imm => exact commit_advance_effect 2 (effect_setCurrent s imm (by simp [Instr.mnemonic]))
  | add r0 r1 => exact commit_advance_effect 3 (effect_setCurrent s _ (by simp [Instr.mnemonic]))
  | sub r0 r1 => exact commit_advance_effect 3 (effect_setCurrent s _ (by simp [Instr.mnemonic]))
  | mul r0 r1 => exact commit_advance_effect 3 (effect_setCurrent s _ (by simp [Instr.mnemonic]))
  | div r0 r1 =>
    by_cases hz : s.reg r1 = 0
    · exact ⟨_, exec_div_of_zero hz, .inl ⟨_, rfl⟩⟩
    · rw [exec_div_of_nonzero hz]
      exact commit_advance_effect 3 (effect_setCurrent s _ (by simp [Instr.mnemonic]))
  | inc r =>
    exact commit_advance_effect 1
      { effect_refl (.inc r) s with regs := fun j h => .inr (.inl (.inl (by rw [changed_setReg h]))) }
  | dec r =>
    exact commit_advance_effect 1
      { effect_refl (.dec r) s with regs := fun j h => .inr (.inl (.inr (by rw [changed_setReg h]))) }
  | prn => exact commit_advance_effect 1 { effect_refl .prn s with out := .inr (.inl ⟨rfl, rfl⟩) }
  | pra => exact commit_advance_effect 1 { effect_refl .pra s with out := .inr (.inr ⟨rfl, rfl⟩) }
  | push =>
    rw [exec_push_eq]
    exact commit_advance_effect 1 (effect_pushed (.inl rfl) s _)
  | pop =>
    rw [exec_pop_eq]
    exact commit_advance_effect 1 (effect_pop s _)
  | call =>
    rw [exec_call_eq]
    split
    · exact ⟨_, rfl, .inr ((effect_pushed (.inr rfl) s _).setPc _)⟩
    · exact ⟨_, rfl, .inl ⟨_, rfl⟩⟩
  | ret => exact ⟨_, exec_ret_eq s, .inr ((effect_ret s).setPc _)⟩
  | ld addr =>
    rw [exec_ld_eq]
    exact commit_advance_effect 2 (effect_setCurrent s _ (by simp [Instr.mnemonic]))
  | st addr =>
    rw [exec_st_eq]
    exact commit_advance_effect 2
      { effect_refl (.st addr) s with mem := .inr ⟨_, _, rfl, byte_le addr, .inl ⟨addr, rfl, rfl⟩⟩ }
  | ldri =>
    rw [exec_ldri_eq]
    split
    · exact commit_advance_effect 2 (effect_setCurrent s _ (by simp [Instr.mnemonic]))
    · exact ⟨_, rfl, .inl ⟨_, rfl⟩⟩
  | stri =>
    rw [exec_stri_eq]
    split
    · rename_i hp
      exact commit_advance_effect 2
        { effect_refl .stri s with mem := .inr ⟨_, _, rfl, byte_le _, .inr (.inl ⟨rfl, hp, rfl⟩)⟩ }
    · exact ⟨_, rfl, .inl ⟨_, rfl⟩⟩
  | jmp => exact commit_advance_effect 1 (effect_refl .jmp s)
  | cmp r =>
    refine commit_advance_effect 2 { effect_refl (.cmp r) s with eq := .inr ⟨⟨r, rfl⟩, ?_⟩ }
    show compareBytes s.current (s.reg r) ≠ .unset
    unfold compareBytes
    split <;> simp
  | jeq addr =>
    cases hc : condEq s with
    | error e => exact ⟨_, exec_jeq_of_error hc addr, .inl ⟨_, rfl⟩⟩
    | ok c =>
      rw [exec_jeq_of_cond hc addr]
      split
      · exact ⟨_, rfl, .inr ((effect_refl _ s).setPc _)⟩
      · exact commit_advance_effect 2 (effect_refl _ s)
  | jne addr =>
    cases hc : condEq s with
    | error e => exact ⟨_, exec_jne_of_error hc addr, .inl ⟨_, rfl⟩⟩
    | ok c =>
      rw [exec_jne_of_cond hc addr]
      split
      · exact commit_advance_effect 2 (effect_refl _ s)
      · exact ⟨_, rfl, .inr ((effect_refl _ s).setPc _)⟩

end Sys2Proof.Machine
end

