-- ==== Sys2Proof/Laws/PerInstr.lean ====
section
/-! SUPPORT. Statements about every instruction as syntax, one lemma per constructor. Family
OperandDecoding: the operands of an instruction decode to that instruction, whatever bytes follow, and
there are as many as its format reads (30_encoding.md R74). -/

namespace Sys2Proof.Laws

/-- The operand bytes decode back, and their number is the format's. -/
def OperandDecoding.Statement (i : Instr) : Prop :=
  (∀ rest, decodeOperands i.mnemonic (i.operandBytes ++ rest) = .ok i) ∧
    i.operandBytes.length = i.mnemonic.format.operandCount

theorem OperandDecoding.halt : OperandDecoding.Statement .halt := ⟨fun _ => rfl, rfl⟩
theorem OperandDecoding.init : OperandDecoding.Statement .init := ⟨fun _ => rfl, rfl⟩
theorem OperandDecoding.set (imm : Byte) : OperandDecoding.Statement (.set imm) := ⟨fun _ => rfl, rfl⟩
theorem OperandDecoding.save (imm : Byte) : OperandDecoding.Statement (.save imm) := ⟨fun _ => rfl, rfl⟩
theorem OperandDecoding.add (r0 r1 : Byte) : OperandDecoding.Statement (.add r0 r1) := ⟨fun _ => rfl, rfl⟩
theorem OperandDecoding.sub (r0 r1 : Byte) : OperandDecoding.Statement (.sub r0 r1) := ⟨fun _ => rfl, rfl⟩
theorem OperandDecoding.mul (r0 r1 : Byte) : OperandDecoding.Statement (.mul r0 r1) := ⟨fun _ => rfl, rfl⟩
theorem OperandDecoding.div (r0 r1 : Byte) : OperandDecoding.Statement (.div r0 r1) := ⟨fun _ => rfl, rfl⟩
theorem OperandDecoding.inc (r : Byte) : OperandDecoding.Statement (.inc r) := ⟨fun _ => rfl, rfl⟩
theorem OperandDecoding.dec (r : Byte) : OperandDecoding.Statement (.dec r) := ⟨fun _ => rfl, rfl⟩
theorem OperandDecoding.prn : OperandDecoding.Statement .prn := ⟨fun _ => rfl, rfl⟩
theorem OperandDecoding.pra : OperandDecoding.Statement .pra := ⟨fun _ => rfl, rfl⟩
theorem OperandDecoding.push : OperandDecoding.Statement .push := ⟨fun _ => rfl, rfl⟩
theorem OperandDecoding.pop : OperandDecoding.Statement .pop := ⟨fun _ => rfl, rfl⟩
theorem OperandDecoding.call : OperandDecoding.Statement .call := ⟨fun _ => rfl, rfl⟩
theorem OperandDecoding.ret : OperandDecoding.Statement .ret := ⟨fun _ => rfl, rfl⟩
theorem OperandDecoding.ld (addr : Byte) : OperandDecoding.Statement (.ld addr) := ⟨fun _ => rfl, rfl⟩
theorem OperandDecoding.st (addr : Byte) : OperandDecoding.Statement (.st addr) := ⟨fun _ => rfl, rfl⟩
theorem OperandDecoding.ldri : OperandDecoding.Statement .ldri := ⟨fun _ => rfl, rfl⟩
theorem OperandDecoding.stri : OperandDecoding.Statement .stri := ⟨fun _ => rfl, rfl⟩
theorem OperandDecoding.jmp : OperandDecoding.Statement .jmp := ⟨fun _ => rfl, rfl⟩
theorem OperandDecoding.cmp (r : Byte) : OperandDecoding.Statement (.cmp r) := ⟨fun _ => rfl, rfl⟩
theorem OperandDecoding.jeq (addr : Byte) : OperandDecoding.Statement (.jeq addr) := ⟨fun _ => rfl, rfl⟩
theorem OperandDecoding.jne (addr : Byte) : OperandDecoding.Statement (.jne addr) := ⟨fun _ => rfl, rfl⟩

end Sys2Proof.Laws
end

