-- ==== Sys2Proof/Laws/Step.lean ====
section
/-! SUPPORT. What a step can do, said once: a halted core stays, a decoded instruction is executed, a
failed decode enters the error state. -/

namespace Sys2Proof.Machine

theorem step_halted {s : State} (h : s.status ≠ .running) : step s = .next s := by
  unfold step
  cases hs : s.status <;> simp_all

theorem step_of_decode_ok {s : State} {i : Instr} (hr : s.status = .running)
    (hd : decode s.cfg.opc (fetchBytes s) = .ok i) : step s = exec i s := by
  simp [step, hr, hd]

theorem step_of_decode_error {s : State} {e : DecodeError} (hr : s.status = .running)
    (hd : decode s.cfg.opc (fetchBytes s) = .error e) :
    step s = .next (s.enterError (decodeErrorRaised s e)) := by
  simp [step, hr, hd]

/-- Everything a step can do (40_cycle.md R97). An executed instruction's mnemonic has the opcode byte
at `pc`, and its operand bytes lie at the addresses after it. -/
theorem step_cases (s : State) :
    (s.status ≠ .running ∧ step s = .next s) ∨
    (s.status = .running ∧ ∃ i, decode s.cfg.opc (fetchBytes s) = .ok i ∧
      s.cfg.opc.byteOf i.mnemonic = s.byteAt s.pc.toNat ∧ step s = exec i s) ∨
    (s.status = .running ∧ ∃ e, decode s.cfg.opc (fetchBytes s) = .error e ∧
      step s = .next (s.enterError (decodeErrorRaised s e))) := by
  by_cases hr : s.status = .running
  · cases hd : decode s.cfg.opc (fetchBytes s) with
    | ok i =>
      refine .inr (.inl ⟨hr, i, rfl, ?_, step_of_decode_ok hr hd⟩)
      obtain ⟨op, rest, m, hb, hm, ho⟩ := decode_ok hd
      obtain ⟨rest', hf⟩ := fetchBytes_cons s
      have hop : op = s.byteAt s.pc.toNat := (List.cons.inj (hb.symm.trans hf)).1
      rw [(decodeOperands_ok ho).1, ← hop]
      exact OpcodeMap.mnemonicOf_sound hm
    | error e => exact .inr (.inr ⟨hr, e, rfl, step_of_decode_error hr hd⟩)
  · exact .inl ⟨hr, step_halted hr⟩

/-! ## Runs -/

theorem run_zero (s : State) : Sys2Proof.core.run 0 s = .next s := rfl

/-- A run of one more step is the rest of the run from where the step goes. -/
theorem run_succ {s t : State} (k : Nat) (h : step s = .next t) :
    Sys2Proof.core.run (k + 1) s = Sys2Proof.core.run k t := by
  have general (M : Host.Core) (s t : M.State) (h : M.step s = .next t) : M.run (k + 1) s = M.run k t := by
    simp [Host.Core.run, h]
  exact general Sys2Proof.core s t h

end Sys2Proof.Machine
end

