-- ==== Sys2Proof/Tests/Slice0.lean ====
section
/-! SUPPORT. Tests. The expected results are the spec's vectors (95_test_vectors.md, named V-…, E…, P… in
the comments) or words written out from 30_encoding.md R71 and R74; and one witness for each statement
that has hypotheses. -/

namespace Sys2Proof.Tests

open Sys2Proof.Machine

/-- A core at `pc` with bytes there, otherwise as reset. -/
def codeAt (pc : Byte) (bs : List Byte) : State := (State.reset.setPc pc).storeBytes pc.toNat bs

/-- The state after one step. -/
def after (s : State) : Option State :=
  match step s with
  | .next t => some t
  | .fault _ => none
  | .refused _ => none

/-- The error record after one step, with the numbers of 60_exceptions.md R200: kind's code, `pc`, opcode,
datum. -/
def errorAfter (s : State) : Option (Nat × Byte × Byte × Option Nat) :=
  ((after s).bind fun t => t.err).map fun r => (r.error.code, r.pc, r.opcode, r.error.datum)

/-- The state with `POP_ADJUSTS_SP = true`. -/
def popAdjusting (s : State) : State := { s with cfg := { s.cfg with popAdjustsSp := true } }

/-- The state with `UNSET_FLAG = as_false`. -/
def unsetAsFalse (s : State) : State := { s with cfg := { s.cfg with unsetFlag := .asFalse } }

/-- The default map with the opcodes of HALT and INIT exchanged (V-ERR-5). -/
def swappedOpcodes : OpcodeMap := { defaultOpcodes with halt := 0x01, init := 0x00 }

/-! ## Well-formedness: an ill-formed term for each check -/

theorem test_wf_default_opcodes : defaultOpcodes.wf = true := by decide
theorem test_wf_swapped_opcodes : swappedOpcodes.wf = true := by decide
theorem test_wf_refuses_shared_opcode : ({ defaultOpcodes with jne := 0x00 } : OpcodeMap).wf = false := by decide
theorem test_wf_refuses_config_with_shared_opcode :
    ({ defaultConfig with opc := { defaultOpcodes with jne := 0x00 } } : Config).wf = false := by decide
theorem test_wf_refuses_poke_address : pokeWf (256, 0) = false := by decide
theorem test_wf_refuses_poke_value : pokeWf (0, 256) = false := by decide
theorem test_wf_refuses_bad_poke_in_load : pokesWf [(0, 1), (256, 0)] = false := by decide
theorem test_wf_refuses_257_bytes : byteSequenceWf (List.replicate 257 0) = false := by
  unfold byteSequenceWf
  rw [List.length_replicate]
  rfl
theorem test_wf_refuses_large_value : byteSequenceWf [0, 256] = false := by decide
theorem test_wf_refuses_instruction_past_the_end : (Instr.add 0 1).fitsAt 254 = false := by decide
theorem test_memory_wf_refuses_unsorted : Memory.wf [(5, 1), (4, 1)] = false := by decide
theorem test_memory_wf_refuses_fill_value : Memory.wf [(5, 0)] = false := by decide
theorem test_memory_wf_refuses_address_256 : Memory.wf [(256, 1)] = false := by decide

/-! ## Decoding: words written out from the encodings -/

theorem test_decode_halt : decode defaultOpcodes [0b00000000] = .ok .halt := by decide
theorem test_decode_init : decode defaultOpcodes [0b00000001] = .ok .init := by decide
theorem test_decode_set : decode defaultOpcodes [0b00000010, 0b00001001] = .ok (.set 9) := by decide
theorem test_decode_save : decode defaultOpcodes [0b00000011, 0b10000000] = .ok (.save 0x80) := by decide
theorem test_decode_add : decode defaultOpcodes [0b00000100, 0b00000000, 0b00000001] = .ok (.add 0 1) := by decide
theorem test_decode_sub : decode defaultOpcodes [0b00000101, 0b00000010, 0b11111111] = .ok (.sub 2 255) := by decide
theorem test_decode_mul : decode defaultOpcodes [0b00000110, 0b00000011, 0b00000100] = .ok (.mul 3 4) := by decide
theorem test_decode_div : decode defaultOpcodes [0b00000111, 0b00000101, 0b00000110] = .ok (.div 5 6) := by decide
theorem test_decode_inc : decode defaultOpcodes [0b00001000, 0b00010100] = .ok (.inc 0x14) := by decide
theorem test_decode_dec : decode defaultOpcodes [0b00001001, 0b11111111] = .ok (.dec 255) := by decide
theorem test_decode_prn : decode defaultOpcodes [0b00001010] = .ok .prn := by decide
theorem test_decode_pra : decode defaultOpcodes [0b00001011] = .ok .pra := by decide
theorem test_decode_push : decode defaultOpcodes [0b00001100] = .ok .push := by decide
theorem test_decode_pop : decode defaultOpcodes [0b00001101] = .ok .pop := by decide
theorem test_decode_call : decode defaultOpcodes [0b00001110] = .ok .call := by decide
theorem test_decode_ret : decode defaultOpcodes [0b00001111] = .ok .ret := by decide
theorem test_decode_ld : decode defaultOpcodes [0b00010000, 0b10000000] = .ok (.ld 0x80) := by decide
theorem test_decode_st : decode defaultOpcodes [0b00010001, 0b10000001] = .ok (.st 0x81) := by decide
theorem test_decode_ldri : decode defaultOpcodes [0b00010010, 0b00110011] = .ok .ldri := by decide
theorem test_decode_stri : decode defaultOpcodes [0b00010011, 0b00000000] = .ok .stri := by decide
theorem test_decode_jmp : decode defaultOpcodes [0b00010100, 0b01000000] = .ok .jmp := by decide
theorem test_decode_cmp : decode defaultOpcodes [0b00010101, 0b00000101] = .ok (.cmp 5) := by decide
theorem test_decode_jeq : decode defaultOpcodes [0b00010110, 0b00101010] = .ok (.jeq 0x2A) := by decide
theorem test_decode_jne : decode defaultOpcodes [0b00010111, 0b00001010] = .ok (.jne 0x0A) := by decide
theorem test_decode_invalid : decode defaultOpcodes [0b00011000] = .error (.invalidOpcode 0x18) := by decide
theorem test_decode_missing : decode defaultOpcodes [0b00000100, 0b00000000] = .error (.missingByte 2) := by decide
theorem test_decode_swapped : decode swappedOpcodes [0b00000000] = .ok .init := by decide
theorem test_table_word_sub : decodeTableWord 24 0xFF0205 = some (.sub 2 255) := by decide
theorem test_table_word_inc : decodeTableWord 8 0x08 = some (.inc 0) := by decide
theorem test_table_word_invalid : decodeTableWord 8 0x18 = none := by decide
theorem test_fetch_word_runs :
    step (State.reset.withFetchWord 24 0x010004) = exec (.add 0 1) (State.reset.withFetchWord 24 0x010004) := rfl

/-! ## One step of each instruction -/

/-- V-CTL-2 -/
theorem test_halt_at_the_last_cell :
    (after (codeAt 0xFF [0x00])).map (fun t => (t.status, t.pc)) = some (.haltedNormal, 0xFF) := by decide
/-- V-CTL-3 -/
theorem test_init : (after ((codeAt 5 [0x01]).setCur 7)).map (fun t => (t.cur, t.pc)) = some (0, 6) := by decide
/-- V-CTL-4 -/
theorem test_init_at_the_last_cell :
    errorAfter ((codeAt 0xFF [0x01]).setCur 7) = some (3, 0xFF, 0x01, some 256) := by decide
/-- V-CTL-5 -/
theorem test_set : (after (codeAt 0 [0x02, 0x09])).map (fun t => (t.cur, t.pc)) = some (9, 2) := by decide
/-- V-CTL-7 -/
theorem test_set_at_254 : errorAfter (codeAt 0xFE [0x02, 0x05]) = some (3, 0xFE, 0x02, some 256) := by decide
/-- V-CTL-9 -/
theorem test_save : (after (codeAt 2 [0x03, 0x08])).map (fun t => (t.reg 0, t.pc)) = some (8, 4) := by decide
/-- V-CTL-10 -/
theorem test_save_sets_the_stack_pointer :
    (after ((codeAt 0 [0x03, 0x80]).setCur 0xFF)).map (fun t => (t.reg 0xFF, t.pc)) = some (0x80, 2) := by decide
/-- V-ARI-2 -/
theorem test_add_wraps :
    (after ((((codeAt 0 [4, 0, 1]).setCur 2).setReg 0 0xC8).setReg 1 0x64)).map (fun t => (t.reg 2, t.pc)) =
      some (0x2C, 3) := by decide
/-- V-ARI-11 -/
theorem test_add_without_second_operand : errorAfter (codeAt 0xFE [4, 0]) = some (3, 0xFE, 4, some 256) := by decide
/-- V-ARI-4 -/
theorem test_sub_wraps :
    (after ((((codeAt 0 [5, 0, 1]).setCur 2).setReg 0 3).setReg 1 5)).map (fun t => (t.reg 2, t.pc)) =
      some (0xFE, 3) := by decide
/-- V-ARI-7 -/
theorem test_mul_wraps :
    (after ((((codeAt 0 [6, 0, 1]).setCur 2).setReg 0 0xFF).setReg 1 0xFF)).map (fun t => t.reg 2) = some 1 := by
  decide
/-- V-ARI-8 -/
theorem test_div_floors :
    (after ((((codeAt 0 [7, 0, 1]).setCur 3).setReg 0 7).setReg 1 2)).map (fun t => (t.reg 3, t.pc)) =
      some (3, 3) := by decide
/-- V-ARI-10 -/
theorem test_div_by_zero_before_advance : errorAfter (codeAt 0xFD [7, 0, 1]) = some (2, 0xFD, 7, some 1) := by decide
/-- V-ARI-12 -/
theorem test_inc_wraps :
    (after ((codeAt 0x0B [8, 0x14]).setReg 0x14 0xFF)).map (fun t => (t.reg 0x14, t.pc)) = some (0, 0x0C) := by decide
/-- V-ARI-17 -/
theorem test_inc_at_the_last_cell : errorAfter (codeAt 0xFF [8]) = some (3, 0xFF, 8, some 256) := by decide
/-- V-ARI-14 -/
theorem test_dec_wraps :
    (after (codeAt 0x0B [9, 0x14])).map (fun t => (t.reg 0x14, t.pc)) = some (0xFF, 0x0C) := by decide
/-- V-OUT-3 -/
theorem test_prn_is_unsigned :
    (after ((codeAt 0 [0x0A]).setReg 0 0xFF)).map (fun t => t.out) = some [.dec 0xFF] := by decide
/-- V-OUT-6 -/
theorem test_prn_at_the_last_cell_emits_nothing :
    (after ((codeAt 0xFF [0x0A]).emit (.dec 1))).map (fun t => (t.status, t.out)) =
      some (.haltedError, [.dec 1]) := by decide
/-- V-OUT-4 -/
theorem test_pra :
    (after (((codeAt 0x16 [0x0B]).setCur 2).setReg 2 0x41)).map (fun t => (t.out, t.pc)) =
      some ([.chr 0x41], 0x17) := by decide
/-- V-OUT-7 -/
theorem test_render : render [.dec 17, .chr 0x41, .dec 0] = [0x31, 0x37, 0x0A, 0x41, 0x30, 0x0A] := by decide
/-- V-STK-2 -/
theorem test_push_into_the_fixed_cell :
    (after (((codeAt 0 [0x0C]).setReg 0 0x2A).setReg 0xFF 0x10)).map
      (fun t => (t.reg 0xFF, t.byteAt 0xFF, t.byteAt 0x0F)) = some (0x0F, 0x2A, 0) := by decide
/-- V-STK-3 -/
theorem test_push_of_the_stack_pointer :
    (after ((codeAt 0 [0x0C]).setCur 0xFF)).map (fun t => (t.reg 0xFF, t.byteAt 0xFF)) = some (0xFF, 0xFF) := by
  decide
/-- V-STK-5 -/
theorem test_pop_reads_at_the_stack_pointer :
    (after ((((codeAt 0x10 [0x0D]).setCur 1).setReg 0xFF 0x30).setByte 0x30 0x77)).map
      (fun t => (t.reg 1, t.reg 0xFF, t.pc)) = some (0x77, 0x30, 0x11) := by decide
/-- V-STK-6, second half -/
theorem test_pop_adjusts_the_popped_stack_pointer :
    (after (popAdjusting ((((codeAt 0x10 [0x0D]).setCur 0xFF).setReg 0xFF 0xFF).setByte 0xFF 0x20))).map
      (fun t => t.reg 0xFF) = some 0x21 := by decide
/-- V-STK-10 -/
theorem test_call_of_the_stack_pointer :
    (after ((codeAt 0x20 [0x0E]).setCur 0xFF)).map (fun t => (t.reg 0xFF, t.byteAt 0xFF, t.pc)) =
      some (0xFF, 0x21, 0xFF) := by decide
/-- V-STK-11 -/
theorem test_call_at_the_last_cell : errorAfter (codeAt 0xFF [0x0E]) = some (3, 0xFF, 0x0E, some 256) := by decide
/-- V-STK-13 -/
theorem test_ret_at_the_last_cell :
    (after ((codeAt 0xFF [0x0F]).setReg 0xFF 0xFF)).map (fun t => (t.pc, t.reg 0xFF)) = some (0x0F, 0xFF) := by decide
/-- V-STK-12, second half -/
theorem test_ret_adjusts :
    (after (popAdjusting (((codeAt 0x17 [0x0F]).setReg 0xFF 0xFF).setByte 0xFF 0x0F))).map
      (fun t => (t.pc, t.reg 0xFF)) = some (0x0F, 0) := by decide
/-- V-MEM-1 -/
theorem test_ld :
    (after (((codeAt 8 [0x10, 0x80]).setCur 2).setByte 0x80 0x41)).map (fun t => (t.reg 2, t.pc)) =
      some (0x41, 0x0A) := by decide
/-- V-MEM-4 -/
theorem test_st_removes_a_zero_cell :
    (after ((codeAt 0x10 [0x11, 0x12]).setByte 0x12 1)).map (fun t => (t.mem, t.pc)) =
      some ([(0x10, 0x11), (0x11, 0x12)], 0x12) := by decide
/-- V-MEM-10 -/
theorem test_st_at_254_writes_nothing :
    (after ((codeAt 0xFE [0x11, 0x80]).setReg 0 0x41)).map (fun t => (t.status, t.byteAt 0x80)) =
      some (.haltedError, 0) := by decide
/-- V-MEM-5b -/
theorem test_ldri_ignores_its_second_byte :
    (after (((((codeAt 6 [0x12, 0x33]).setCur 1).setReg 7 0x90).setReg 0x33 0x50).setByte 0x90 0x2A)).map
      (fun t => (t.reg 1, t.pc)) = some (0x2A, 8) := by decide
/-- V-MEM-8 -/
theorem test_ldri_at_the_last_cell : errorAfter (codeAt 0xFF [0x12]) = some (3, 0xFF, 0x12, some 256) := by decide
/-- V-MEM-6 -/
theorem test_stri :
    (after (((codeAt 8 [0x13, 0x00]).setCur 1).setReg 1 0x2A)).map (fun t => (t.byteAt 0, t.pc)) =
      some (0x2A, 0x0A) := by decide
/-- V-BR-1 -/
theorem test_jmp : (after (codeAt 0x0C [0x14, 0x40])).map (fun t => t.pc) = some 0x0D := by decide
/-- V-BR-2 -/
theorem test_jmp_at_the_last_cell : errorAfter (codeAt 0xFF [0x14]) = some (3, 0xFF, 0x14, some 256) := by decide
/-- V-BR-3 -/
theorem test_cmp_differs :
    (after (((codeAt 0x0D [0x15, 0x00]).setCur 0x14).setReg 0x14 2)).map (fun t => (t.eq, t.pc)) =
      some (.isFalse, 0x0F) := by decide
/-- V-BR-5 -/
theorem test_cmp_equal :
    (after (((((codeAt 0 [0x15, 0x02]).setCur 1).setReg 1 7).setReg 2 7).setEq .isFalse)).map (fun t => t.eq) =
      some .isTrue := by decide
/-- V-BR-10 -/
theorem test_jeq_taken_at_254 :
    (after ((codeAt 0xFE [0x16, 0x05]).setEq .isTrue)).map (fun t => t.pc) = some 5 := by decide
/-- V-BR-11 -/
theorem test_jeq_operand_before_unset_flag : errorAfter (codeAt 0xFF [0x16]) = some (3, 0xFF, 0x16, some 256) := by
  decide
/-- V-BR-9 -/
theorem test_jne_on_the_unset_flag : errorAfter (codeAt 0 [0x17, 0x05]) = some (4, 0, 0x17, none) := by decide
/-- V-BR-9, second half -/
theorem test_jne_on_the_unset_flag_as_false :
    (after (unsetAsFalse (codeAt 0 [0x17, 0x05]))).map (fun t => t.pc) = some 5 := by decide
/-- V-ERR-2 -/
theorem test_invalid_opcode :
    errorAfter ((codeAt 0x42 [0xFF]).setCur 9) = some (1, 0x42, 0xFF, some 0xFF) := by decide
/-- V-ERR-4: a halted core keeps its first error -/
theorem test_halted_core_stays : step ((codeAt 0 [0x18]).enterError (.invalidOpcode 0x18)) =
    .next ((codeAt 0 [0x18]).enterError (.invalidOpcode 0x18)) := rfl
/-- V-ERR-5, its first step -/
theorem test_swapped_opcodes_run_init :
    (after (State.construct { defaultConfig with opc := swappedOpcodes })).map (fun t => (t.pc, t.status)) =
      some (1, .running) := by decide
/-- P9 -/
theorem test_load_bytes :
    (loadBytes defaultConfig [2, 0, 3, 8]).map (fun h => (snapshot h).mem) = some [(0, 2), (2, 3), (3, 8)] := by decide
/-- P9, refused load -/
theorem test_load_257_bytes_refused : loadBytes defaultConfig (List.replicate 257 0) = none := by
  rw [loadBytes, test_wf_refuses_257_bytes]
  rfl
/-- R102: no poke after the first step -/
theorem test_poke_after_a_step_refused : poke (hostStep (construct defaultConfig)) 0 1 = none := by decide

/-! ## Witnesses: states that meet the hypotheses of the statements, at the boundary values -/

theorem witness_HaltStopsTheCoreNormally : AtOpcode (codeAt 255 [0x00]) .halt := by decide
theorem witness_InitSelectsRegisterZero :
    (codeAt 254 [0x01]).pc.toNat + 1 ≤ 255 ∧ AtOpcode (codeAt 254 [0x01]) .init ∧
      AtOpcode (codeAt 255 [0x01]) .init ∧ (codeAt 255 [0x01]).pc.toNat = 255 := by decide
theorem witness_SetSelectsTheRegisterNamedByItsImmediate :
    (codeAt 253 [0x02, 9]).pc.toNat + 2 ≤ 255 ∧ AtOpcode (codeAt 254 [0x02, 9]) .set ∧
      (codeAt 254 [0x02, 9]).pc.toNat + 1 ≤ 255 ∧ 254 ≤ (codeAt 254 [0x02, 9]).pc.toNat ∧
      AtOpcode (codeAt 255 [0x02]) .set := by decide
theorem witness_SaveWritesItsImmediateToTheCurrentRegister :
    (codeAt 253 [0x03, 9]).pc.toNat + 2 ≤ 255 ∧ AtOpcode (codeAt 254 [0x03, 9]) .save ∧
      (codeAt 254 [0x03, 9]).pc.toNat + 1 ≤ 255 ∧ 254 ≤ (codeAt 254 [0x03, 9]).pc.toNat ∧
      AtOpcode (codeAt 255 [0x03]) .save := by decide
theorem witness_AddWritesTheSumModulo256 :
    (codeAt 252 [4, 0, 1]).pc.toNat + 3 ≤ 255 ∧ AtOpcode (codeAt 253 [4, 0, 1]) .add ∧
      (codeAt 253 [4, 0, 1]).pc.toNat + 2 ≤ 255 ∧ 253 ≤ (codeAt 253 [4, 0, 1]).pc.toNat ∧
      AtOpcode (codeAt 255 [4]) .add := by decide
theorem witness_SubWritesTheDifferenceModulo256 :
    (codeAt 252 [5, 0, 1]).pc.toNat + 3 ≤ 255 ∧ AtOpcode (codeAt 253 [5, 0, 1]) .sub ∧
      (codeAt 253 [5, 0, 1]).pc.toNat + 2 ≤ 255 ∧ 253 ≤ (codeAt 253 [5, 0, 1]).pc.toNat ∧
      AtOpcode (codeAt 255 [5]) .sub := by decide
theorem witness_MulWritesTheProductModulo256 :
    (codeAt 252 [6, 0, 1]).pc.toNat + 3 ≤ 255 ∧ AtOpcode (codeAt 253 [6, 0, 1]) .mul ∧
      (codeAt 253 [6, 0, 1]).pc.toNat + 2 ≤ 255 ∧ 253 ≤ (codeAt 253 [6, 0, 1]).pc.toNat ∧
      AtOpcode (codeAt 255 [6]) .mul := by decide
theorem witness_DivWritesTheFloorQuotientOrRaises :
    ((codeAt 252 [7, 0, 1]).setReg 1 2).pc.toNat + 3 ≤ 255 ∧ ((codeAt 252 [7, 0, 1]).setReg 1 2).reg 1 ≠ 0 ∧
    AtOpcode (codeAt 253 [7, 0, 1]) .div ∧ (codeAt 253 [7, 0, 1]).pc.toNat + 2 ≤ 255 ∧
      (codeAt 253 [7, 0, 1]).reg ((codeAt 253 [7, 0, 1]).byteAt ((codeAt 253 [7, 0, 1]).pc.toNat + 2)) = 0 ∧
    AtOpcode ((codeAt 253 [7, 0, 1]).setReg 1 2) .div ∧
      ((codeAt 253 [7, 0, 1]).setReg 1 2).reg (((codeAt 253 [7, 0, 1]).setReg 1 2).byteAt 255) ≠ 0 ∧
    AtOpcode (codeAt 254 [7, 0]) .div := by decide
theorem witness_IncIncrementsItsOperandRegister :
    (codeAt 254 [8, 3]).pc.toNat + 1 ≤ 255 ∧ AtOpcode (codeAt 254 [8, 3]) .inc ∧
      AtOpcode (codeAt 255 [8]) .inc ∧ (codeAt 255 [8]).pc.toNat = 255 := by decide
theorem witness_DecDecrementsItsOperandRegister :
    (codeAt 254 [9, 3]).pc.toNat + 1 ≤ 255 ∧ AtOpcode (codeAt 254 [9, 3]) .dec ∧
      AtOpcode (codeAt 255 [9]) .dec ∧ (codeAt 255 [9]).pc.toNat = 255 := by decide
theorem witness_PrnEmitsTheCurrentRegisterAsANumber :
    (codeAt 254 [0x0A]).pc.toNat + 1 ≤ 255 ∧ AtOpcode (codeAt 254 [0x0A]) .prn ∧
      AtOpcode (codeAt 255 [0x0A]) .prn ∧ (codeAt 255 [0x0A]).pc.toNat = 255 := by decide
theorem witness_PraEmitsTheCurrentRegisterAsACharacterCode :
    (codeAt 254 [0x0B]).pc.toNat + 1 ≤ 255 ∧ AtOpcode (codeAt 254 [0x0B]) .pra ∧
      AtOpcode (codeAt 255 [0x0B]) .pra ∧ (codeAt 255 [0x0B]).pc.toNat = 255 := by decide
theorem witness_PushDecrementsTheStackPointerAndStoresInCell255 :
    (codeAt 254 [0x0C]).pc.toNat + 1 ≤ 255 ∧ AtOpcode (codeAt 254 [0x0C]) .push ∧
      AtOpcode (codeAt 255 [0x0C]) .push ∧ (codeAt 255 [0x0C]).pc.toNat = 255 := by decide
theorem witness_PopReadsTheCellTheStackPointerNames :
    (codeAt 254 [0x0D]).pc.toNat + 1 ≤ 255 ∧ (codeAt 254 [0x0D]).cfg.popAdjustsSp = false ∧
    (popAdjusting (codeAt 254 [0x0D])).cfg.popAdjustsSp = true ∧ (popAdjusting (codeAt 254 [0x0D])).cur ≠ 255 ∧
    (popAdjusting ((codeAt 254 [0x0D]).setCur 255)).cur = 255 ∧
    AtOpcode (codeAt 254 [0x0D]) .pop ∧ AtOpcode (codeAt 255 [0x0D]) .pop ∧
      (codeAt 255 [0x0D]).pc.toNat = 255 := by decide
theorem witness_CallPushesTheReturnAddressAndJumps :
    (codeAt 254 [0x0E]).pc.toNat + 1 ≤ 255 ∧ AtOpcode (codeAt 254 [0x0E]) .call ∧
      AtOpcode (codeAt 255 [0x0E]) .call ∧ (codeAt 255 [0x0E]).pc.toNat = 255 := by decide
theorem witness_RetPopsTheProgramCounter :
    AtOpcode (codeAt 255 [0x0F]) .ret ∧ (codeAt 255 [0x0F]).cfg.popAdjustsSp = false ∧
      (popAdjusting (codeAt 255 [0x0F])).cfg.popAdjustsSp = true := by decide
theorem witness_LdLoadsFromItsOperandAddress :
    (codeAt 253 [0x10, 9]).pc.toNat + 2 ≤ 255 ∧ AtOpcode (codeAt 254 [0x10, 9]) .ld ∧
      (codeAt 254 [0x10, 9]).pc.toNat + 1 ≤ 255 ∧ 254 ≤ (codeAt 254 [0x10, 9]).pc.toNat ∧
      AtOpcode (codeAt 255 [0x10]) .ld := by decide
theorem witness_StStoresToItsOperandAddress :
    (codeAt 253 [0x11, 9]).pc.toNat + 2 ≤ 255 ∧ AtOpcode (codeAt 254 [0x11, 9]) .st ∧
      (codeAt 254 [0x11, 9]).pc.toNat + 1 ≤ 255 ∧ 254 ≤ (codeAt 254 [0x11, 9]).pc.toNat ∧
      AtOpcode (codeAt 255 [0x11]) .st := by decide
theorem witness_LdriLoadsThroughTheRegisterNumberedPcPlusOne :
    (254 : Byte).toNat = (codeAt 253 [0x12, 0]).pc.toNat + 1 ∧ (codeAt 253 [0x12, 0]).pc.toNat + 2 ≤ 255 ∧
      AtOpcode (codeAt 254 [0x12, 0]) .ldri ∧ 254 ≤ (codeAt 254 [0x12, 0]).pc.toNat ∧
      AtOpcode (codeAt 255 [0x12]) .ldri := by decide
theorem witness_StriStoresThroughTheRegisterNumberedPcPlusOne :
    (254 : Byte).toNat = (codeAt 253 [0x13, 0]).pc.toNat + 1 ∧ (codeAt 253 [0x13, 0]).pc.toNat + 2 ≤ 255 ∧
      AtOpcode (codeAt 254 [0x13, 0]) .stri ∧ 254 ≤ (codeAt 254 [0x13, 0]).pc.toNat ∧
      AtOpcode (codeAt 255 [0x13]) .stri := by decide
theorem witness_JmpMovesToTheAddressAfterItsOpcode :
    (codeAt 254 [0x14]).pc.toNat + 1 ≤ 255 ∧ AtOpcode (codeAt 254 [0x14]) .jmp ∧
      AtOpcode (codeAt 255 [0x14]) .jmp ∧ (codeAt 255 [0x14]).pc.toNat = 255 := by decide
theorem witness_CmpSetsTheFlagFromTwoRegisters :
    (codeAt 253 [0x15, 1]).pc.toNat + 2 ≤ 255 ∧ (codeAt 253 [0x15, 1]).reg 0 = (codeAt 253 [0x15, 1]).reg 1 ∧
      ((codeAt 253 [0x15, 1]).setReg 1 7).reg 0 ≠ ((codeAt 253 [0x15, 1]).setReg 1 7).reg 1 ∧
      AtOpcode (codeAt 254 [0x15, 1]) .cmp ∧ (codeAt 254 [0x15, 1]).pc.toNat + 1 ≤ 255 ∧
      AtOpcode (codeAt 255 [0x15]) .cmp := by decide
theorem witness_JeqJumpsWhenTheFlagIsTrue :
    ((codeAt 254 [0x16, 5]).setEq .isTrue).eq = .isTrue ∧
    ((codeAt 253 [0x16, 5]).setEq .isFalse).eq = .isFalse ∧ (codeAt 253 [0x16, 5]).pc.toNat + 2 ≤ 255 ∧
    (unsetAsFalse (codeAt 253 [0x16, 5])).eq = .unset ∧
      (unsetAsFalse (codeAt 253 [0x16, 5])).cfg.unsetFlag = .asFalse ∧
    AtOpcode (codeAt 254 [0x16, 5]) .jeq ∧ (codeAt 254 [0x16, 5]).pc.toNat + 1 ≤ 255 ∧
      (codeAt 254 [0x16, 5]).eq = .unset ∧ (codeAt 254 [0x16, 5]).cfg.unsetFlag = .fault ∧
    AtOpcode ((codeAt 254 [0x16, 5]).setEq .isFalse) .jeq ∧
      ((codeAt 254 [0x16, 5]).setEq .isFalse).pc.toNat = 254 ∧
    AtOpcode (codeAt 255 [0x16]) .jeq ∧ (codeAt 255 [0x16]).pc.toNat = 255 := by decide
theorem witness_JneJumpsWhenTheFlagIsFalse :
    ((codeAt 254 [0x17, 5]).setEq .isFalse).eq = .isFalse ∧
    (unsetAsFalse (codeAt 254 [0x17, 5])).eq = .unset ∧
      (unsetAsFalse (codeAt 254 [0x17, 5])).cfg.unsetFlag = .asFalse ∧
    ((codeAt 253 [0x17, 5]).setEq .isTrue).eq = .isTrue ∧ (codeAt 253 [0x17, 5]).pc.toNat + 2 ≤ 255 ∧
    AtOpcode (codeAt 254 [0x17, 5]) .jne ∧ (codeAt 254 [0x17, 5]).pc.toNat + 1 ≤ 255 ∧
      (codeAt 254 [0x17, 5]).eq = .unset ∧ (codeAt 254 [0x17, 5]).cfg.unsetFlag = .fault ∧
    AtOpcode ((codeAt 254 [0x17, 5]).setEq .isTrue) .jne ∧
      ((codeAt 254 [0x17, 5]).setEq .isTrue).pc.toNat = 254 ∧
    AtOpcode (codeAt 255 [0x17]) .jne ∧ (codeAt 255 [0x17]).pc.toNat = 255 := by decide

theorem witness_StepRunsTheDecodedInstruction :
    (codeAt 253 [4, 0, 1]).status = .running ∧
    decode (codeAt 253 [4, 0, 1]).cfg.opc (fetchBytes (codeAt 253 [4, 0, 1])) = .ok (.add 0 1) ∧
    (codeAt 253 [4, 0, 1]).pc.toNat + 2 ≤ 255 ∧ 255 < (codeAt 254 [4, 0]).pc.toNat + 2 := by decide
theorem witness_EncodedInstructionAtPcIsExecuted :
    (codeAt 253 [4, 0, 1]).status = .running ∧ (codeAt 253 [4, 0, 1]).cfg.opc.wf = true ∧
    (Instr.add 0 1).fitsAt (codeAt 253 [4, 0, 1]).pc.toNat = true ∧
    ∀ k ∈ [0, 1, 2], (encode (codeAt 253 [4, 0, 1]).cfg.opc (.add 0 1))[k]? =
      some ((codeAt 253 [4, 0, 1]).byteAt ((codeAt 253 [4, 0, 1]).pc.toNat + k)) := by decide
theorem witness_DecodeOfEncodeIsTheInstruction : defaultOpcodes.wf = true ∧ swappedOpcodes.wf = true := by decide
theorem witness_LookupFindsExactlyTheOpcode : swappedOpcodes.wf = true := by decide
theorem witness_InvalidOpcodeRaises :
    (codeAt 255 [0x18]).status = .running ∧
    ∀ m ∈ Mnemonic.all, (codeAt 255 [0x18]).cfg.opc.byteOf m ≠
      (codeAt 255 [0x18]).byteAt (codeAt 255 [0x18]).pc.toNat := by decide
theorem witness_StepKeepsTheInvariant :
    ∃ s t : State, s.Inv ∧ step s = .next t ∧ t.status = .running ∧ t.mem ≠ s.mem :=
  ⟨(codeAt 0 [0x11, 0x80]).setReg 0 0x41, _, by decide, rfl, by decide, by decide⟩
theorem witness_StepKeepsTheInvariant_error_entry :
    ∃ s t : State, s.Inv ∧ step s = .next t ∧ t.status = .haltedError :=
  ⟨codeAt 255 [0x0A], _, by decide, rfl, by decide⟩
theorem witness_ConstructionMeetsTheInvariant :
    ({ defaultConfig with opc := swappedOpcodes } : Config).wf = true := by decide
theorem witness_HaltedCoreDoesNotChange :
    (codeAt 0 [0x0A]).halt.isTerminal ∧ ((codeAt 0 [0x18]).enterError (.invalidOpcode 0x18)).isTerminal := by decide
theorem witness_ErrorEntryChangesOnlyStatusAndRecord :
    ∃ s t : State, s.status = .running ∧ step s = .next t ∧ t.status = .haltedError :=
  ⟨codeAt 253 [7, 0, 1], _, rfl, rfl, rfl⟩
theorem witness_RunStateTransitions :
    AtOpcode State.reset .halt ∧
    (∃ s t : State, s.isTerminal ∧ step s = .next t) ∧
    (∃ s t : State, s.status = .running ∧ step s = .next t ∧ t.status = .running) ∧
    (∃ s t : State, s.status = .running ∧ step s = .next t ∧ t.status = .haltedNormal) :=
  ⟨by decide, ⟨State.reset.halt, _, .inl rfl, rfl⟩, ⟨codeAt 0 [1], _, rfl, rfl, rfl⟩, ⟨State.reset, _, rfl, rfl, rfl⟩⟩
theorem witness_OutputIsOnlyAppendedTo : ∃ s t : State, step s = .next t ∧ t.out ≠ s.out :=
  ⟨codeAt 254 [0x0A], _, rfl, by decide⟩
theorem witness_EqualFlagIsWrittenByCmpAndReadByJumps :
    (codeAt 253 [0x15, 0]).pc.toNat + 2 ≤ 255 ∧
    (∃ s t : State, step s = .next t ∧ t.eq ≠ s.eq) ∧ (∃ s t : State, step s = .next t ∧ s.eq ≠ .unset) ∧
    ((Instr.add 0 1).mnemonic ≠ .cmp ∧ (Instr.add 0 1).mnemonic ≠ .jeq ∧ (Instr.add 0 1).mnemonic ≠ .jne) :=
  ⟨by decide, ⟨codeAt 253 [0x15, 0], _, rfl, by decide⟩, ⟨(codeAt 0 [0x15, 0]).setEq .isTrue, _, rfl, by decide⟩, by decide⟩
theorem witness_CurrentSelectorIsWrittenByInitAndSet : ∃ s t : State, step s = .next t ∧ t.cur ≠ s.cur :=
  ⟨codeAt 253 [0x02, 9], _, rfl, by decide⟩
theorem witness_MemoryIsWrittenOnlyByStoresAndPushes :
    (∃ s t : State, step s = .next t ∧ t.byteAt 0x80 ≠ s.byteAt 0x80) ∧
    (∃ s t : State, step s = .next t ∧ t.byteAt 255 ≠ s.byteAt 255) :=
  ⟨⟨(codeAt 0 [0x11, 0x80]).setReg 0 0x41, _, rfl, by decide⟩, ⟨codeAt 0 [0x0E], _, rfl, by decide⟩⟩
theorem witness_RegistersAreWrittenOnlyWhereTabled :
    (∃ s t : State, step s = .next t ∧ t.reg 0 ≠ s.reg 0) ∧ (∃ s t : State, step s = .next t ∧ t.reg 255 ≠ s.reg 255) :=
  ⟨⟨codeAt 0 [0x03, 8], _, rfl, by decide⟩, ⟨popAdjusting (codeAt 0 [0x0F]), _, rfl, by decide⟩⟩
theorem witness_ParametersAreConstant :
    (∃ s t : State, step s = .next t) ∧ (poke (construct defaultConfig) 255 255).isSome = true ∧
    (loadPokes defaultConfig [(255, 255)]).isSome = true ∧ (loadBytes defaultConfig [0, 255]).isSome = true :=
  ⟨⟨State.reset, _, rfl⟩, by decide, by decide, by decide⟩
theorem witness_ArithmeticLaw : (0 : Byte) = 0 ∧ (255 : Byte) ≠ 0 := by decide
theorem witness_ConditionReadsTheFlag :
    (State.reset.setEq .isTrue).eq = .isTrue ∧ (State.reset.setEq .isFalse).eq = .isFalse ∧
    (State.reset.eq = .unset ∧ State.reset.cfg.unsetFlag = .fault) ∧
    ((unsetAsFalse State.reset).eq = .unset ∧ (unsetAsFalse State.reset).cfg.unsetFlag = .asFalse) := by decide
theorem witness_MemoryAccessPrimitives :
    255 < 256 ∧ 255 ≤ 255 ∧ (memWrite State.reset 255 255).toOption.isSome = true ∧
      (memWrite State.reset 255 256).toOption.isSome = false := by decide
theorem witness_PopAfterPushReturnsTheValue :
    ∃ s t u : State, exec .push s = .next t ∧ s.pc.toNat + 1 ≤ 255 ∧ s.reg 255 = 0 ∧ s.cur ≠ 255 ∧
      u.reg 255 = t.reg 255 ∧ u.byteAt 255 = t.byteAt 255 ∧ u.pc.toNat + 1 ≤ 255 ∧ u.cur ≠ 255 ∧ s.reg s.cur = 0x2A :=
  ⟨(codeAt 253 [0x0C]).setReg 0 0x2A, _, ((((codeAt 254 [0x0D]).setCur 1).setReg 255 255).setByte 255 0x2A),
    rfl, by decide⟩
theorem witness_RetAfterCallReturns :
    ∃ s t u : State, exec .call s = .next t ∧ s.pc.toNat + 1 ≤ 255 ∧ s.reg 255 = 0 ∧ u.reg 255 = 255 ∧
      u.byteAt 255 = t.byteAt 255 :=
  ⟨codeAt 254 [0x0E], _, ((State.reset.setReg 255 255).setByte 255 255), rfl, by decide⟩
theorem witness_StoredByteIsTheNextOpcodeFetched :
    (∃ s t : State, AtOpcode s .st ∧ s.pc.toNat + 2 ≤ 255 ∧ step s = .next t ∧
      (s.byteAt (s.pc.toNat + 1)).toNat = s.pc.toNat + 2) ∧
    (∃ s t : State, AtOpcode s .st ∧ s.pc.toNat + 2 ≤ 255 ∧ step s = .next t ∧
      (s.byteAt (s.pc.toNat + 1)).toNat = s.pc.toNat + 1) :=
  ⟨⟨codeAt 253 [0x11, 255], _, by decide, by decide, rfl, by decide⟩,
    ⟨codeAt 253 [0x11, 254], _, by decide, by decide, rfl, by decide⟩⟩
theorem witness_RunOfAHaltedCoreStays : State.reset.halt.isTerminal := by decide
theorem witness_RunKeepsInvariantParametersAndOutput :
    ∃ s t : State, s.Inv ∧ Sys2Proof.core.run 2 s = .next t ∧ t.out ≠ s.out :=
  ⟨codeAt 0 [0x0A, 0x0B], _, by decide, rfl, by decide⟩
theorem witness_SafeRunsHaveSafeBeginnings : SafeRun (1 + 1) (codeAt 0 [0x0A]) := ⟨_, rfl, by decide⟩
theorem witness_LoadedBytesAreTheLaunchMemory :
    (List.replicate 256 255).length ≤ 256 ∧ (∀ v ∈ List.replicate 256 255, v ≤ 255) ∧
      256 < (List.replicate 257 0).length ∧ ∃ v ∈ [0, 256], 255 < v :=
  ⟨by rw [List.length_replicate], fun _ h => (List.eq_of_mem_replicate h).le,
    by rw [List.length_replicate]; decide, 256, by decide, by decide⟩
/-- A value above 255 is refused (40_cycle.md R102, D30). -/
theorem test_load_large_value_refused : loadBytes defaultConfig [0, 256] = none := by decide
/-- Exactly 256 bytes are no malformed load (40_cycle.md R102, D30). -/
theorem test_wf_accepts_256_bytes : byteSequenceWf (List.replicate 256 255) = true := by
  unfold byteSequenceWf
  rw [List.length_replicate, List.all_replicate]; decide
theorem witness_PokeWritesOneCellBeforeTheFirstStep :
    (construct defaultConfig).steps = 0 ∧ (hostStep (construct defaultConfig)).steps ≠ 0 ∧
      (poke (construct defaultConfig) 255 255).isSome = true ∧ (poke (construct defaultConfig) 256 0).isSome = false ∧
      (poke (construct defaultConfig) 0 256).isSome = false := by decide
theorem witness_EveryStepCountsOnce :
    (construct defaultConfig).core.status = .running ∧ (hostStep (construct defaultConfig)).core.isTerminal := by
  decide

end Sys2Proof.Tests
end

section
/-! The inversion of a step, said once, and what follows from it for each piece of state that the
family 10_state.md speaks of. -/

namespace Sys2Proof

/-- An injective map finds each mnemonic by its opcode byte (30_encoding.md R75). -/
theorem OpcodeMap.mnemonicOf_byteOf {opc : OpcodeMap} (h : opc.wf = true) (m : Mnemonic) :
    opc.mnemonicOf (opc.byteOf m) = some m := by
  cases hm : opc.mnemonicOf (opc.byteOf m) with
  | none => exact absurd rfl (OpcodeMap.mnemonicOf_none.mp hm m)
  | some n => rw [OpcodeMap.byteOf_injective h (OpcodeMap.mnemonicOf_sound hm)]

end Sys2Proof

namespace Sys2Proof.Machine

/-! ## What a step can do -/

/-- A byte that a fetch gives after the opcode is the byte at `pc + 1` (40_cycle.md R94). -/
theorem fetchBytes_second {s : State} {op b : Byte} {rest : List Byte}
    (h : fetchBytes s = op :: b :: rest) : b = s.byteAt (s.pc.toNat + 1) := by
  rw [fetchBytes_eq] at h
  split at h
  · exact (List.cons.inj (List.cons.inj h).2).1.symm
  · split at h
    · exact (List.cons.inj (List.cons.inj h).2).1.symm
    · cases (List.cons.inj h).2

/-- The single operand of a decoded instruction is the byte at `pc + 1`. -/
theorem operand_eq_of_decode {s : State} {i : Instr} {b : Byte}
    (hd : decode s.cfg.opc (fetchBytes s) = .ok i) (hb : i.operandBytes = [b]) :
    b = s.byteAt (s.pc.toNat + 1) := by
  obtain ⟨op, rest, m, hf, -, ho⟩ := decode_ok hd
  obtain ⟨-, rest', hrest⟩ := decodeOperands_ok ho
  refine fetchBytes_second (op := op) (rest := rest') ?_
  rw [hf, hrest, hb]
  rfl

/-- Inversion of a step (40_cycle.md R97): a halted core stays, or a running core enters the error state,
or the decoded instruction, whose opcode stands at `pc`, has its effect. -/
theorem step_next_cases {s t : State} (h : step s = .next t) :
    (s.status ≠ .running ∧ t = s) ∨
    (s.status = .running ∧ ∃ e, t = s.enterError e) ∨
    (s.status = .running ∧ ∃ i, s.byteAt s.pc.toNat = s.cfg.opc.byteOf i.mnemonic ∧
      decode s.cfg.opc (fetchBytes s) = .ok i ∧ Effect i s t) := by
  rcases step_cases s with ⟨hr, hs⟩ | ⟨hr, i, hd, hop, hs⟩ | ⟨hr, e, -, hs⟩
  · exact .inl ⟨hr, next_inj (h.symm.trans hs)⟩
  · obtain ⟨u, hu, hcase⟩ := exec_cases i s
    obtain rfl : t = u := next_inj (h.symm.trans (hs.trans hu))
    rcases hcase with he | heff
    · exact .inr (.inl ⟨hr, he⟩)
    · exact .inr (.inr ⟨hr, i, hop.symm, hd, heff⟩)
  · exact .inr (.inl ⟨hr, _, next_inj (h.symm.trans hs)⟩)

/-- Every step has a next state: no step faults or refuses. -/
theorem step_total (s : State) : ∃ t, step s = .next t := by
  rcases step_cases s with ⟨-, hs⟩ | ⟨-, i, -, -, hs⟩ | ⟨-, e, -, hs⟩
  · exact ⟨s, hs⟩
  · obtain ⟨t, ht, -⟩ := exec_cases i s
    exact ⟨t, hs.trans ht⟩
  · exact ⟨_, hs⟩

/-- The error entry in the words of the claims (60_exceptions.md R203). -/
theorem errorEntered_enterError (s : State) (e : RaisedError) : ErrorEntered s (s.enterError e) e :=
  ⟨rfl, rfl, rfl, rfl, rfl, rfl, rfl, fun _ _ => rfl, fun _ _ => rfl⟩

/-- HALT has no operands, so its opcode alone decodes to it. -/
theorem step_of_atOpcode_halt {s : State} (h : AtOpcode s .halt) : step s = .next s.halt := by
  obtain ⟨hr, hwf, hop⟩ := h
  obtain ⟨rest, hf⟩ := fetchBytes_cons s
  have hd : decode s.cfg.opc (fetchBytes s) = .ok .halt := by
    simp [hf, hop, decode, OpcodeMap.mnemonicOf_byteOf hwf, decodeOperands]
  exact step_of_decode_ok hr hd

/-! ## What every step keeps, by piece of state -/

/-- No step changes the parameters (10_state.md R35). -/
theorem step_keeps_cfg {s t : State} (h : step s = .next t) : t.cfg = s.cfg := by
  rcases step_next_cases h with ⟨-, rfl⟩ | ⟨-, e, rfl⟩ | ⟨-, i, -, -, heff⟩
  · rfl
  · rfl
  · exact heff.cfg

/-- An instruction's effect keeps memory canonical (20_memory.md R50). -/
theorem Effect.keeps_mem_wf {i : Instr} {s t : State} (h : Effect i s t) (hm : Memory.wf s.mem = true) :
    Memory.wf t.mem = true := by
  rcases h.mem with heq | ⟨a, v, heq, ha, -⟩
  · rwa [heq]
  · rw [heq]
    exact Memory.wf_write v hm ha

/-- In a running core with a consistent record there is no record (10_state.md R30). -/
theorem err_none_of_running {s : State} (hw : s.errorRecordWf = true) (hr : s.status = .running) :
    s.err = none := by
  cases he : s.err with
  | none => rfl
  | some r => simp [State.errorRecordWf, he, hr] at hw

theorem errorRecordWf_of_none {s : State} (he : s.err = none) (hs : s.status ≠ .haltedError) :
    s.errorRecordWf = true := by
  simp [State.errorRecordWf, he, hs]

theorem errorRecordWf_enterError (s : State) (e : RaisedError) : (s.enterError e).errorRecordWf = true := by
  simp [State.errorRecordWf]

/-- An instruction that raises nothing ends in no error state. -/
theorem Effect.status_of_running {i : Instr} {s t : State} (h : Effect i s t) (hr : s.status = .running) :
    t.status = .running ∨ (i = .halt ∧ t.status = .haltedNormal) :=
  h.status.imp_left (·.trans hr)

theorem step_keeps_inv {s t : State} (hinv : s.Inv) (h : step s = .next t) : t.Inv := by
  obtain ⟨hopc, hmem, hrec⟩ := hinv
  rcases step_next_cases h with ⟨-, rfl⟩ | ⟨-, e, rfl⟩ | ⟨hr, i, -, -, heff⟩
  · exact ⟨hopc, hmem, hrec⟩
  · exact ⟨hopc, hmem, errorRecordWf_enterError s e⟩
  · have herr : t.err = none := heff.err.trans (err_none_of_running hrec hr)
    have hstatus : t.status ≠ .haltedError := by
      rcases heff.status_of_running hr with hs | ⟨-, hs⟩ <;> simp [hs]
    exact ⟨by rwa [heff.cfg], heff.keeps_mem_wf hmem, errorRecordWf_of_none herr hstatus⟩

/-- A step appends nothing, or one event of PRN or PRA with its opcode at `pc` (43_output.md R140). -/
theorem step_out {s t : State} (h : step s = .next t) :
    t.out = s.out ∨
    (s.byteAt s.pc.toNat = s.cfg.opc.byteOf .prn ∧ t.out = s.out ++ [.dec (s.reg s.cur)]) ∨
    (s.byteAt s.pc.toNat = s.cfg.opc.byteOf .pra ∧ t.out = s.out ++ [.chr (s.reg s.cur)]) := by
  rcases step_next_cases h with ⟨-, rfl⟩ | ⟨-, e, rfl⟩ | ⟨-, i, hop, -, heff⟩
  · exact .inl rfl
  · exact .inl rfl
  · rcases heff.out with heq | ⟨rfl, heq⟩ | ⟨rfl, heq⟩
    · exact .inl heq
    · exact .inr (.inl ⟨hop, heq⟩)
    · exact .inr (.inr ⟨hop, heq⟩)

theorem step_out_extends {s t : State} (h : step s = .next t) :
    ∃ es, t.out = s.out ++ es ∧ es.length ≤ 1 := by
  rcases step_out h with heq | ⟨-, heq⟩ | ⟨-, heq⟩
  · exact ⟨[], by simp [heq], by simp⟩
  · exact ⟨_, heq, le_refl _⟩
  · exact ⟨_, heq, le_refl _⟩

/-- A step keeps `EQ`, or CMP stands at `pc` and `EQ` is then not unset (10_state.md R26). -/
theorem step_eq {s t : State} (h : step s = .next t) :
    t.eq = s.eq ∨ (s.byteAt s.pc.toNat = s.cfg.opc.byteOf .cmp ∧ t.eq ≠ .unset) := by
  rcases step_next_cases h with ⟨-, rfl⟩ | ⟨-, e, rfl⟩ | ⟨-, i, hop, -, heff⟩
  · exact .inl rfl
  · exact .inl rfl
  · rcases heff.eq with heq | ⟨⟨r, rfl⟩, hne⟩
    · exact .inl heq
    · exact .inr ⟨hop, hne⟩

/-- A step keeps `cur`, or INIT or SET stands at `pc` (10_state.md R25). -/
theorem step_cur {s t : State} (h : step s = .next t) :
    t.cur = s.cur ∨ s.byteAt s.pc.toNat = s.cfg.opc.byteOf .init ∨
      s.byteAt s.pc.toNat = s.cfg.opc.byteOf .set := by
  rcases step_next_cases h with ⟨-, rfl⟩ | ⟨-, e, rfl⟩ | ⟨-, i, hop, -, heff⟩
  · exact .inl rfl
  · exact .inl rfl
  · rcases heff.cur with heq | rfl | ⟨imm, rfl⟩
    · exact .inl heq
    · exact .inr (.inl hop)
    · exact .inr (.inr hop)

/-- What a step of a running core makes of the run state (10_state.md R29). -/
theorem step_status_of_running {s t : State} (hr : s.status = .running) (h : step s = .next t) :
    t.status = .running ∨
    (t.status = .haltedNormal ∧ s.byteAt s.pc.toNat = s.cfg.opc.byteOf .halt) ∨
    (t.status = .haltedError ∧ ∃ e, ErrorEntered s t e) := by
  rcases step_next_cases h with ⟨hn, -⟩ | ⟨-, e, rfl⟩ | ⟨-, i, hop, -, heff⟩
  · exact absurd hr hn
  · exact .inr (.inr ⟨rfl, e, errorEntered_enterError s e⟩)
  · rcases heff.status_of_running hr with hs | ⟨rfl, hs⟩
    · exact .inl hs
    · exact .inr (.inl ⟨hs, hop⟩)

theorem status_ne_running_of_isTerminal {s : State} (h : s.isTerminal) : s.status ≠ .running := by
  rcases h with hs | hs <;> simp [hs]

/-! ## Runs -/

/-- A run of one more step is a step and the rest of the run from where it goes. -/
theorem exists_step_of_run_succ {k : Nat} {s t : State} (h : Sys2Proof.core.run (k + 1) s = .next t) :
    ∃ u, step s = .next u ∧ Sys2Proof.core.run k u = .next t := by
  obtain ⟨u, hu⟩ := step_total s
  exact ⟨u, hu, (run_succ k hu).symm.trans h⟩

theorem run_keeps_inv {k : Nat} {s t : State} (hinv : s.Inv) (h : Sys2Proof.core.run k s = .next t) :
    t.Inv := by
  induction k generalizing s with
  | zero => rwa [← next_inj h]
  | succ k ih =>
    obtain ⟨u, hu, hrun⟩ := exists_step_of_run_succ h
    exact ih (step_keeps_inv hinv hu) hrun

theorem run_keeps_cfg {k : Nat} {s t : State} (h : Sys2Proof.core.run k s = .next t) : t.cfg = s.cfg := by
  induction k generalizing s with
  | zero => rw [next_inj h]
  | succ k ih =>
    obtain ⟨u, hu, hrun⟩ := exists_step_of_run_succ h
    exact (ih hrun).trans (step_keeps_cfg hu)

theorem run_out_extends {k : Nat} {s t : State} (h : Sys2Proof.core.run k s = .next t) :
    ∃ es, t.out = s.out ++ es ∧ es.length ≤ k := by
  induction k generalizing s with
  | zero => exact ⟨[], by rw [next_inj h, List.append_nil], le_refl _⟩
  | succ k ih =>
    obtain ⟨u, hu, hrun⟩ := exists_step_of_run_succ h
    obtain ⟨first, hfirst, hlen⟩ := step_out_extends hu
    obtain ⟨later, hlater, hlen'⟩ := ih hrun
    refine ⟨first ++ later, by rw [hlater, hfirst, List.append_assoc], ?_⟩
    rw [List.length_append]
    omega

/-! ## The host's operations keep the parameters -/

theorem hostStep_keeps_cfg (h : Session) : (hostStep h).core.cfg = h.core.cfg := by
  unfold hostStep
  split
  · split
    · exact step_keeps_cfg ‹_›
    · rfl
    · rfl
  · rfl
  · rfl

theorem hostRun_keeps_cfg (k : Nat) (h : Session) : (hostRun k h).core.cfg = h.core.cfg := by
  induction k generalizing h with
  | zero => rfl
  | succ k ih => exact (ih (hostStep h)).trans (hostStep_keeps_cfg h)

theorem poke_keeps_cfg {h g : Session} {a v : Nat} (hp : poke h a v = some g) : g.core.cfg = h.core.cfg := by
  unfold poke at hp
  split at hp
  · cases hp
    rfl
  · cases hp

theorem applyPokes_cfg (ps : List (Nat × Nat)) (s : State) : (applyPokes s ps).cfg = s.cfg := by
  induction ps generalizing s with
  | nil => rfl
  | cons p ps ih => exact ih (s.setByte p.1 (BitVec.ofNat 8 p.2))

theorem loadPokes_cfg {cfg : Config} {ps : List (Nat × Nat)} {h : Session}
    (hl : loadPokes cfg ps = some h) : h.core.cfg = cfg := by
  unfold loadPokes at hl
  split at hl
  · cases hl
    exact applyPokes_cfg ps (State.construct cfg)
  · cases hl

theorem loadBytes_cfg {cfg : Config} {bs : List Nat} {h : Session}
    (hl : loadBytes cfg bs = some h) : h.core.cfg = cfg := by
  unfold loadBytes at hl
  split at hl
  · exact loadPokes_cfg hl
  · cases hl

/-! ## Registers -/

/-- A register that a step changes, with the mnemonic at `pc` that writes it (10_state.md R21). -/
theorem step_changed_reg {s t : State} {j : Byte} (h : step s = .next t) (hne : t.reg j ≠ s.reg j) :
    ∃ m : Mnemonic, s.byteAt s.pc.toNat = s.cfg.opc.byteOf m ∧
      ((m ∈ [.save, .add, .sub, .mul, .div, .pop, .ld, .ldri] ∧ j = s.cur) ∨
       (m ∈ [.inc, .dec] ∧ j = s.byteAt (s.pc.toNat + 1)) ∨
       (m ∈ [.push, .call] ∧ j = 255) ∨
       (m ∈ [.pop, .ret] ∧ s.cfg.popAdjustsSp = true ∧ j = 255)) := by
  rcases step_next_cases h with ⟨-, rfl⟩ | ⟨-, e, rfl⟩ | ⟨-, i, hop, hd, heff⟩
  · exact absurd rfl hne
  · exact absurd rfl hne
  · refine ⟨i.mnemonic, hop, ?_⟩
    rcases heff.regs j hne with hcur | (rfl | rfl) | hpush | hpop
    · exact .inl hcur
    · exact .inr (.inl ⟨by simp [Instr.mnemonic], operand_eq_of_decode hd rfl⟩)
    · exact .inr (.inl ⟨by simp [Instr.mnemonic], operand_eq_of_decode hd rfl⟩)
    · exact .inr (.inr (.inl hpush))
    · exact .inr (.inr (.inr hpop))

end Sys2Proof.Machine
end

section
/-! Instructions that do not look at a piece of state: an update of that piece commutes with them. -/

namespace Sys2Proof.Machine

/-- An update that leaves `pc` alone and commutes with setting it and with the error entry commutes with
a transaction that ends with `Advance(n)`. -/
theorem commit_advance_commutes {g : State → State} (hpc : ∀ s, (g s).pc = s.pc)
    (hset : ∀ s p, (g s).setPc p = g (s.setPc p)) (herr : ∀ s e, (g s).enterError e = g (s.enterError e))
    (s u : State) (n : Nat) :
    ∃ t, commit s (advance u n) = .next t ∧ commit (g s) (advance (g u) n) = .next (g t) := by
  rw [commit_advance_eq, commit_advance_eq, hpc]
  split
  · exact ⟨_, rfl, by rw [hset]⟩
  · exact ⟨_, rfl, by rw [herr]⟩

theorem commit_advance_setEq (s u : State) (f : EqFlag) (n : Nat) :
    ∃ t, commit s (advance u n) = .next t ∧
      commit (s.setEq f) (advance (u.setEq f) n) = .next (t.setEq f) :=
  commit_advance_commutes (g := (·.setEq f)) (fun _ => rfl) (fun _ _ => rfl) (fun _ _ => rfl) s u n

theorem commit_advance_setCur (s u : State) (c : Byte) (n : Nat) :
    ∃ t, commit s (advance u n) = .next t ∧
      commit (s.setCur c) (advance (u.setCur c) n) = .next (t.setCur c) :=
  commit_advance_commutes (g := (·.setCur c)) (fun _ => rfl) (fun _ _ => rfl) (fun _ _ => rfl) s u n

theorem adjustSpAfterPop_setEq (s : State) (f : EqFlag) :
    (s.setEq f).adjustSpAfterPop = s.adjustSpAfterPop.setEq f := by
  rw [State.adjustSpAfterPop_def, State.adjustSpAfterPop_def, State.setEq_cfg]
  split <;> rfl

/-- Only CMP, JEQ and JNE have to do with `EQ`: any other instruction commutes with a change of it
(10_state.md R26). -/
theorem exec_commutes_setEq (i : Instr) (s : State) (f : EqFlag)
    (hcmp : i.mnemonic ≠ .cmp) (hjeq : i.mnemonic ≠ .jeq) (hjne : i.mnemonic ≠ .jne) :
    ∃ t, exec i s = .next t ∧ exec i (s.setEq f) = .next (t.setEq f) := by
  cases i with
  | halt => exact ⟨_, rfl, rfl⟩
  | init => exact commit_advance_setEq s (s.setCur 0) f 1
  | set imm => exact commit_advance_setEq s (s.setCur imm) f 2
  | save imm => exact commit_advance_setEq s (s.setCurrent imm) f 2
  | add r0 r1 => exact commit_advance_setEq s (s.setCurrent (aluAdd (s.reg r0) (s.reg r1))) f 3
  | sub r0 r1 => exact commit_advance_setEq s (s.setCurrent (aluSub (s.reg r0) (s.reg r1))) f 3
  | mul r0 r1 => exact commit_advance_setEq s (s.setCurrent (aluMul (s.reg r0) (s.reg r1))) f 3
  | div r0 r1 =>
    by_cases hz : s.reg r1 = 0
    · exact ⟨_, exec_div_of_zero hz, exec_div_of_zero (s := s.setEq f) hz⟩
    · rw [exec_div_of_nonzero hz, exec_div_of_nonzero (s := s.setEq f) hz]
      exact commit_advance_setEq s
        (s.setCurrent (BitVec.ofNat 8 ((s.reg r0).toNat / (s.reg r1).toNat))) f 3
  | inc r => exact commit_advance_setEq s (s.setReg r (aluAdd (s.reg r) 1)) f 1
  | dec r => exact commit_advance_setEq s (s.setReg r (aluSub (s.reg r) 1)) f 1
  | prn => exact commit_advance_setEq s (s.emit (.dec s.current)) f 1
  | pra => exact commit_advance_setEq s (s.emit (.chr s.current)) f 1
  | push =>
    rw [exec_push_eq, exec_push_eq]
    exact commit_advance_setEq s (s.decrementSp.setByte stackCell s.decrementSp.current) f 1
  | pop =>
    obtain ⟨t, ht, htf⟩ :=
      commit_advance_setEq s (s.setCurrent (s.byteAt (s.reg spIndex).toNat)).adjustSpAfterPop f 1
    rw [← adjustSpAfterPop_setEq] at htf
    exact ⟨t, (exec_pop_eq s).trans ht, (exec_pop_eq (s.setEq f)).trans htf⟩
  | call =>
    rw [exec_call_eq, exec_call_eq, State.setEq_pc]
    split
    · exact ⟨_, rfl, rfl⟩
    · exact ⟨_, rfl, rfl⟩
  | ret =>
    refine ⟨_, exec_ret_eq s, ?_⟩
    rw [exec_ret_eq, adjustSpAfterPop_setEq]
    rfl
  | ld addr =>
    rw [exec_ld_eq, exec_ld_eq]
    exact commit_advance_setEq s (s.setCurrent (s.byteAt addr.toNat)) f 2
  | st addr =>
    rw [exec_st_eq, exec_st_eq]
    exact commit_advance_setEq s (s.setByte addr.toNat s.current) f 2
  | ldri =>
    rw [exec_ldri_eq, exec_ldri_eq, State.setEq_pc]
    split
    · exact commit_advance_setEq s
        (s.setCurrent (s.byteAt (s.reg (BitVec.ofNat 8 (s.pc.toNat + 1))).toNat)) f 2
    · exact ⟨_, rfl, rfl⟩
  | stri =>
    rw [exec_stri_eq, exec_stri_eq, State.setEq_pc]
    split
    · exact commit_advance_setEq s
        (s.setByte (s.reg (BitVec.ofNat 8 (s.pc.toNat + 1))).toNat s.current) f 2
    · exact ⟨_, rfl, rfl⟩
  | jmp => exact commit_advance_setEq s s f 1
  | cmp r => exact absurd rfl hcmp
  | jeq addr => exact absurd rfl hjeq
  | jne addr => exact absurd rfl hjne

/-- INC does not look at `cur` (10_state.md R25). -/
theorem exec_inc_commutes_setCur (r : Byte) (s : State) (c : Byte) :
    ∃ t, exec (.inc r) s = .next t ∧ exec (.inc r) (s.setCur c) = .next (t.setCur c) :=
  commit_advance_setCur s (s.setReg r (aluAdd (s.reg r) 1)) c 1

/-- DEC does not look at `cur` (10_state.md R25). -/
theorem exec_dec_commutes_setCur (r : Byte) (s : State) (c : Byte) :
    ∃ t, exec (.dec r) s = .next t ∧ exec (.dec r) (s.setCur c) = .next (t.setCur c) :=
  commit_advance_setCur s (s.setReg r (aluSub (s.reg r) 1)) c 1

theorem compareBytes_ne_unset (a b : Byte) : compareBytes a b ≠ .unset := by
  unfold compareBytes
  split <;> simp

/-- A CMP that does not run off memory leaves `EQ` written (46_compare_branch.md R181). -/
theorem exec_cmp_writes_eq {s : State} (r : Byte) (hp : s.pc.toNat + 2 ≤ 255) :
    ∃ t, exec (.cmp r) s = .next t ∧ t.eq ≠ .unset :=
  ⟨_, (commit_advance_eq s (s.setEq (compareBytes s.current (s.reg r))) 2).trans (if_pos hp),
    compareBytes_ne_unset _ _⟩

end Sys2Proof.Machine
end

section
/-! The statements of the family 10_state.md, each from the lemmas above. -/

namespace Sys2Proof.Machine

/-- Settles O32: a step is a stay, an error entry or an instruction's effect, and each keeps the three
parts of the invariant. -/
theorem stepKeepsTheInvariant : Obligations.StepKeepsTheInvariant :=
  fun _ _ hinv h => step_keeps_inv hinv h

/-- Settles O52: the invariant, the parameters and the output bound, each by induction on the number of
steps. -/
theorem runKeepsInvariantParametersAndOutput : Obligations.RunKeepsInvariantParametersAndOutput :=
  fun _ _ _ hinv h => ⟨run_keeps_inv hinv h, run_keeps_cfg h, run_out_extends h⟩

/-- Settles O37: by the inversion of a step; with an injective map HALT's opcode decodes to HALT. -/
theorem runStateTransitions : Obligations.RunStateTransitions := by
  refine ⟨fun _ => rfl, fun s h => ⟨_, step_of_atOpcode_halt h, rfl⟩, fun s e => ⟨_, rfl, rfl⟩, ?_, ?_⟩
  · intro s t hterm h
    rw [next_inj (h.symm.trans (step_halted (status_ne_running_of_isTerminal hterm)))]
  · exact fun s t hr h => step_status_of_running hr h

/-- Settles O38: only the effects of PRN and PRA touch the output. -/
theorem outputIsOnlyAppendedTo : Obligations.OutputIsOnlyAppendedTo :=
  ⟨rfl, fun _ _ h => step_out h⟩

/-- Settles O39: what a step makes of `EQ`, and that the other instructions commute with a change of it. -/
theorem equalFlagIsWrittenByCmpAndReadByJumps : Obligations.EqualFlagIsWrittenByCmpAndReadByJumps := by
  refine ⟨rfl, fun s t h hne => ?_, fun r s hp => exec_cmp_writes_eq r hp, fun s t h hset => ?_,
    exec_commutes_setEq⟩
  · obtain ⟨hop, -⟩ := (step_eq h).resolve_left hne
    exact hop
  · rcases step_eq h with heq | ⟨-, hne⟩
    · rwa [heq]
    · exact hne

/-- Settles O40: what a step makes of `cur`, and that INC and DEC commute with a change of it. -/
theorem currentSelectorIsWrittenByInitAndSet : Obligations.CurrentSelectorIsWrittenByInitAndSet :=
  ⟨rfl, fun _ _ h hne => (step_cur h).resolve_left hne, exec_inc_commutes_setCur, exec_dec_commutes_setCur⟩

/-- Settles O42: the registers an effect writes, and the operand byte of INC and DEC traced back to
`pc + 1`. -/
theorem registersAreWrittenOnlyWhereTabled : Obligations.RegistersAreWrittenOnlyWhereTabled :=
  fun _ _ _ h hne => step_changed_reg h hne

/-- Settles O43: by the inversion of a step, and by induction on the run's bound and on the pokes. -/
theorem parametersAreConstant : Obligations.ParametersAreConstant :=
  ⟨fun _ _ h => step_keeps_cfg h, fun _ _ _ _ hp => poke_keeps_cfg hp, hostRun_keeps_cfg,
    fun _ _ _ hl => loadPokes_cfg hl, fun _ _ _ hl => loadBytes_cfg hl⟩

/-- Every register of a constructed core is 0 (10_state.md R36). -/
theorem construct_reg (cfg : Config) (i : Byte) : (State.construct cfg).reg i = 0 := by
  simp [State.reg, State.construct]

/-- Settles O31: each field by its definition, the registers by reading the constant vector. -/
theorem constructionGivesTheResetValues : Obligations.ConstructionGivesTheResetValues :=
  ⟨fun cfg => ⟨fun _ => rfl, construct_reg cfg, rfl, rfl, rfl, rfl, rfl, rfl⟩, rfl⟩

/-- A core constructed with an injective map meets the invariant: memory is empty, there is no record. -/
theorem construct_inv {cfg : Config} (h : cfg.wf = true) : (State.construct cfg).Inv :=
  ⟨h, construct_mem_wf cfg, errorRecordWf_of_none rfl (by simp [State.construct])⟩

/-- Settles O33: the default map is injective, so reset is one of the constructed cores. -/
theorem constructionMeetsTheInvariant : Obligations.ConstructionMeetsTheInvariant :=
  ⟨construct_inv (cfg := defaultConfig) defaultOpcodes_wf, fun _ h => construct_inv h⟩

end Sys2Proof.Machine
end

section
/-! Which byte of memory an effect and a step can change, and how a step decodes the instruction whose
opcode stands at `pc`. -/

namespace Sys2Proof.Machine

/-! ## Changed bytes -/

/-- An address that a write changes is the one written. -/
theorem Memory.eq_of_read_write_ne {m : Memory} {a b : Nat} {v : Byte}
    (h : Memory.read (Memory.write m a v) b ≠ Memory.read m b) : b = a := by
  by_contra hne
  exact h (Memory.read_write_other m v hne)

/-- A byte that an effect changes is the target of ST or STRI, or the fixed cell of PUSH and CALL
(20_memory.md R53). -/
theorem Effect.changed_byte {i : Instr} {s t : State} {a : Nat} (h : Effect i s t)
    (hne : t.byteAt a ≠ s.byteAt a) :
    (∃ addr : Byte, i = .st addr ∧ a = addr.toNat) ∨
    (i = .stri ∧ s.pc.toNat + 1 ≤ 255 ∧ a = (s.reg (BitVec.ofNat 8 (s.pc.toNat + 1))).toNat) ∨
    ((i = .push ∨ i = .call) ∧ a = stackCell) := by
  unfold State.byteAt at hne
  rcases h.mem with heq | ⟨b, v, heq, -, htarget⟩
  · exact absurd (by rw [heq]) hne
  · rw [heq] at hne
    obtain rfl : a = b := Memory.eq_of_read_write_ne hne
    exact htarget

/-- A byte that a step changes, with the opcode at `pc` that writes it: ST's target is traced back to its
operand byte, STRI's to the register numbered `pc + 1` (20_memory.md R53). -/
theorem step_changed_byte {s t : State} {a : Nat} (h : step s = .next t)
    (hne : t.byteAt a ≠ s.byteAt a) :
    (s.byteAt s.pc.toNat = s.cfg.opc.byteOf .st ∧ a = (s.byteAt (s.pc.toNat + 1)).toNat) ∨
    (s.byteAt s.pc.toNat = s.cfg.opc.byteOf .stri ∧
      ∃ i : Byte, i.toNat = s.pc.toNat + 1 ∧ a = (s.reg i).toNat) ∨
    (s.byteAt s.pc.toNat = s.cfg.opc.byteOf .push ∧ a = 255) ∨
    (s.byteAt s.pc.toNat = s.cfg.opc.byteOf .call ∧ a = 255) := by
  rcases step_next_cases h with ⟨-, rfl⟩ | ⟨-, e, rfl⟩ | ⟨-, i, hop, hd, heff⟩
  · exact absurd rfl hne
  · exact absurd rfl hne
  · rcases heff.changed_byte hne with ⟨addr, rfl, ha⟩ | ⟨rfl, hp, ha⟩ | ⟨rfl | rfl, ha⟩
    · exact .inl ⟨hop, by rw [ha, operand_eq_of_decode hd rfl]⟩
    · exact .inr (.inl ⟨hop, _, toNat_byte_of_le hp, ha⟩)
    · exact .inr (.inr (.inl ⟨hop, ha⟩))
    · exact .inr (.inr (.inr ⟨hop, ha⟩))

/-! ## The instruction whose opcode stands at `pc` -/

/-- The first byte of a fetch is the opcode byte (40_cycle.md R92). -/
theorem fetchBytes_head (s : State) : (fetchBytes s)[0]? = some (s.byteAt s.pc.toNat) := by
  obtain ⟨rest, hf⟩ := fetchBytes_cons s
  rw [hf]
  rfl

/-- Where memory has a byte after the opcode, a fetch gives it second (40_cycle.md R94). -/
theorem fetchBytes_cons_cons {s : State} (hp : s.pc.toNat + 1 ≤ 255) :
    ∃ rest, fetchBytes s = s.byteAt s.pc.toNat :: s.byteAt (s.pc.toNat + 1) :: rest := by
  rw [fetchBytes_eq, if_pos hp]
  split <;> exact ⟨_, rfl⟩

/-- With the opcode of `m` at `pc` and an injective map, a decode of the fetched bytes is the decode of
the operands of `m`. -/
theorem decode_of_atOpcode {s : State} {m : Mnemonic} {rest : List Byte} (h : AtOpcode s m)
    (hf : fetchBytes s = s.byteAt s.pc.toNat :: rest) :
    decode s.cfg.opc (fetchBytes s) = decodeOperands m rest := by
  obtain ⟨-, hwf, hop⟩ := h
  simp only [hf, hop, decode, OpcodeMap.mnemonicOf_byteOf hwf]

theorem step_of_atOpcode_st {s : State} (h : AtOpcode s .st) (hp : s.pc.toNat + 1 ≤ 255) :
    step s = exec (.st (s.byteAt (s.pc.toNat + 1))) s := by
  obtain ⟨rest, hf⟩ := fetchBytes_cons_cons hp
  exact step_of_decode_ok h.1 (decode_of_atOpcode h hf)

/-- An ST with room to advance stores the current register and moves `pc` by 2 (45_memory_access.md
R171). -/
theorem exec_st_of_room {s : State} (addr : Byte) (hp : s.pc.toNat + 2 ≤ 255) :
    exec (.st addr) s =
      .next ((s.setByte addr.toNat (s.reg s.cur)).setPc (BitVec.ofNat 8 (s.pc.toNat + 2))) := by
  rw [exec_st_eq, commit_advance_eq]
  exact if_pos hp

/-- The first byte fetched after an ST that had room to advance is the byte at `pc + 2`, as the store
left it (20_memory.md R62). -/
theorem fetchBytes_head_after_st {s : State} (addr v : Byte) (hp : s.pc.toNat + 2 ≤ 255) :
    (fetchBytes ((s.setByte addr.toNat v).setPc (BitVec.ofNat 8 (s.pc.toNat + 2))))[0]? =
      some (if s.pc.toNat + 2 = addr.toNat then v else s.byteAt (s.pc.toNat + 2)) := by
  rw [fetchBytes_head, State.setPc_pc, toNat_byte_of_le hp, State.setPc_byteAt, State.byteAt_setByte]

end Sys2Proof.Machine
end

section
/-! The statements of the family 20_memory.md, each from the lemmas above. -/

namespace Sys2Proof.Machine

/-- Settles O41: the inversion of a step leaves only an instruction's effect to change memory, and that
effect names its target. -/
theorem memoryIsWrittenOnlyByStoresAndPushes : Obligations.MemoryIsWrittenOnlyByStoresAndPushes :=
  fun _ _ _ h hne => step_changed_byte h hne

/-- Settles O50: the step is the ST with the operand at `pc + 1`, and the next fetch begins at `pc + 2`,
the stored cell in the first case and another one in the second. -/
theorem storedByteIsTheNextOpcodeFetched : Obligations.StoredByteIsTheNextOpcodeFetched := by
  intro s t hat hp h
  rw [step_of_atOpcode_st hat (by omega), exec_st_of_room _ hp] at h
  obtain rfl := next_inj h
  refine ⟨fun haddr => ?_, fun haddr => ⟨?_, ?_⟩⟩
  · rw [fetchBytes_head_after_st _ _ hp, if_pos haddr.symm]
  · rw [State.setPc_byteAt, haddr, State.byteAt_setByte_same]
  · rw [fetchBytes_head_after_st _ _ hp, if_neg (by omega)]

/-- Settles O47: by the closed forms of the two primitives, and read after write. -/
theorem memoryAccessPrimitives : Obligations.MemoryAccessPrimitives := by
  intro s a
  refine ⟨fun ha => ?_, fun ha => ?_, fun v ha => ?_, fun v ha hv => ?_, fun v ha hv => ?_⟩
  · rw [memRead_eq, if_neg (Nat.not_le.mpr ha)]
  · rw [memRead_eq, if_pos ha]
  · rw [memWrite_eq, if_neg (Nat.not_le.mpr ha)]
  · rw [memWrite_eq, if_pos ha, if_neg (Nat.not_le.mpr hv)]
  · refine ⟨s.setByte a (BitVec.ofNat 8 v), by rw [memWrite_eq, if_pos ha, if_pos hv], ?_, ?_,
      rfl, rfl, rfl, rfl, rfl, rfl, rfl, rfl⟩
    · rw [State.byteAt_setByte_same, toNat_byte_of_le hv]
    · exact fun b hb => s.byteAt_setByte_other _ (by simpa using hb)

end Sys2Proof.Machine
end

section
/-! The decoder on the bytes that the encoder writes, the bytes that are no opcode, and what the fetch
gives the decoder at each place. -/

namespace Sys2Proof

/-! ## The lookup -/

/-- Under an injective map the lookup is the inverse of `OPC` (30_encoding.md R73, R75). -/
theorem OpcodeMap.mnemonicOf_eq_some_iff {opc : OpcodeMap} (h : opc.wf = true) {b : Byte} {m : Mnemonic} :
    opc.mnemonicOf b = some m ↔ opc.byteOf m = b :=
  ⟨OpcodeMap.mnemonicOf_sound, fun hb => hb ▸ OpcodeMap.mnemonicOf_byteOf h m⟩

/-- The default map numbers the mnemonics in table order from 0 (30_encoding.md R74). -/
theorem map_byteOf_defaultOpcodes :
    Mnemonic.all.map defaultOpcodes.byteOf = (List.range 24).map (BitVec.ofNat 8) := by decide

/-- The bytes that are opcodes of the default map are the 24 numbers below 0x18. -/
theorem exists_byteOf_defaultOpcodes_iff {b : Byte} :
    (∃ m, defaultOpcodes.byteOf m = b) ↔ b.toNat < 0x18 := by
  have hmem : (∃ m, defaultOpcodes.byteOf m = b) ↔ b ∈ Mnemonic.all.map defaultOpcodes.byteOf := by
    simp [Mnemonic.mem_all]
  rw [hmem, map_byteOf_defaultOpcodes, List.mem_map]
  constructor
  · rintro ⟨n, hn, rfl⟩
    have hlt : n < 24 := List.mem_range.mp hn
    rw [BitVec.toNat_ofNat]
    omega
  · exact fun hlt => ⟨b.toNat, List.mem_range.mpr hlt, by simp⟩

/-! ## Decoding an opcode and its operands -/

/-- The family OperandDecoding holds of every instruction. -/
theorem Laws.OperandDecoding.all : ∀ i : Instr, Laws.OperandDecoding.Statement i
  | .halt => halt
  | .init => init
  | .set imm => set imm
  | .save imm => save imm
  | .add r0 r1 => add r0 r1
  | .sub r0 r1 => sub r0 r1
  | .mul r0 r1 => mul r0 r1
  | .div r0 r1 => div r0 r1
  | .inc r => inc r
  | .dec r => dec r
  | .prn => prn
  | .pra => pra
  | .push => push
  | .pop => pop
  | .call => call
  | .ret => ret
  | .ld addr => ld addr
  | .st addr => st addr
  | .ldri => ldri
  | .stri => stri
  | .jmp => jmp
  | .cmp r => cmp r
  | .jeq addr => jeq addr
  | .jne addr => jne addr

/-- The bytes that decide a decode: the opcode of an instruction and the operands that it reads. Nothing
after them is looked at (30_encoding.md R77). -/
theorem decode_opcode_operands {opc : OpcodeMap} (h : opc.wf = true) (i : Instr) (rest : List Byte) :
    decode opc (opc.byteOf i.mnemonic :: (i.operandBytes ++ rest)) = .ok i := by
  simp only [decode, OpcodeMap.mnemonicOf_byteOf h]
  exact (Laws.OperandDecoding.all i).1 rest

/-- An encoding begins with those bytes; a pad may follow them (log entry 4). -/
theorem exists_pad_encode_eq (opc : OpcodeMap) (i : Instr) :
    ∃ pad, encode opc i = (opc.byteOf i.mnemonic :: i.operandBytes) ++ pad :=
  ⟨_, rfl⟩

/-- Two bytes are operands enough for every mnemonic, whatever they are (30_encoding.md R76). -/
theorem decodeOperands_two_bytes (m : Mnemonic) (b1 b2 : Byte) :
    ∃ i, decodeOperands m [b1, b2] = .ok i ∧ i.mnemonic = m := by
  cases m <;> exact ⟨_, rfl, rfl⟩

theorem Format.operandCount_le (f : Format) : f.operandCount ≤ 2 := by cases f <;> decide

theorem Instr.length_operandBytes (i : Instr) : i.operandBytes.length = i.mnemonic.format.operandCount :=
  (Laws.OperandDecoding.all i).2

end Sys2Proof

namespace Sys2Proof.Machine

/-! ## The fetched bytes -/

/-- Byte `k` of a fetch is the byte at `pc + k`, where memory has one (40_cycle.md R94). -/
theorem fetchBytes_getElem? {s : State} {k : Nat} (hk : k ≤ 2) (hp : s.pc.toNat + k ≤ 255) :
    (fetchBytes s)[k]? = some (s.byteAt (s.pc.toNat + k)) := by
  match k, hk with
  | 0, _ => exact fetchBytes_head s
  | 1, _ =>
    obtain ⟨rest, hf⟩ := fetchBytes_cons_cons hp
    rw [hf]
    rfl
  | 2, _ =>
    rw [fetchBytes_eq, if_pos hp]
    rfl

/-- A list of at most three bytes that stand in memory from `pc` on begins the fetch. -/
theorem isPrefix_fetchBytes {s : State} {bs : List Byte} (hlen : bs.length ≤ 3)
    (hfit : s.pc.toNat + bs.length ≤ 256)
    (hb : ∀ (k : Nat) (hk : k < bs.length), s.byteAt (s.pc.toNat + k) = bs[k]) :
    bs <+: fetchBytes s := by
  rw [List.prefix_iff_getElem?]
  intro k hk
  rw [fetchBytes_getElem? (by omega) (by omega), hb k hk]

/-- A running core whose byte at `pc` is no opcode enters the error state (30_encoding.md R76). -/
theorem step_of_invalid_opcode {s : State} (hr : s.status = .running)
    (h : ∀ m, s.cfg.opc.byteOf m ≠ s.byteAt s.pc.toNat) :
    step s = .next (s.enterError (.invalidOpcode (s.byteAt s.pc.toNat))) := by
  obtain ⟨rest, hf⟩ := fetchBytes_cons s
  have hd : decode s.cfg.opc (fetchBytes s) = .error (.invalidOpcode (s.byteAt s.pc.toNat)) := by
    simp only [hf, decode, OpcodeMap.mnemonicOf_none.mpr h]
  exact step_of_decode_error hr hd

end Sys2Proof.Machine
end

section
/-! The statements of the family 30_encoding.md, each from the lemmas above. -/

namespace Sys2Proof.Machine

/-- Settles O27: an encoding is the opcode, the operands that the instruction reads, and a pad; the
decoder looks at no byte of the pad or after it. -/
theorem decodeOfEncodeIsTheInstruction : Obligations.DecodeOfEncodeIsTheInstruction := by
  intro opc i rest hwf
  obtain ⟨pad, hpad⟩ := exists_pad_encode_eq opc i
  rw [hpad, List.append_assoc]
  exact decode_opcode_operands hwf i (pad ++ rest)

/-- Settles O26: the opcode and the operands begin what the step fetches, so the fetch decodes
to the instruction. -/
theorem encodedInstructionAtPcIsExecuted : Obligations.EncodedInstructionAtPcIsExecuted := by
  intro s i hr hwf hfit hstands
  obtain ⟨pad, hpad⟩ := exists_pad_encode_eq s.cfg.opc i
  have hlen : (s.cfg.opc.byteOf i.mnemonic :: i.operandBytes).length =
      i.mnemonic.format.operandCount + 1 := by
    rw [List.length_cons, i.length_operandBytes]
  have hcount := i.mnemonic.format.operandCount_le
  have hin : s.pc.toNat + i.mnemonic.format.operandCount ≤ 255 := of_decide_eq_true hfit
  have hbegin : (s.cfg.opc.byteOf i.mnemonic :: i.operandBytes) <+: fetchBytes s :=
    isPrefix_fetchBytes (by omega) (by omega) fun k hk =>
      hstands k _ (by omega) (by rw [hpad, List.getElem?_append_left hk, List.getElem?_eq_getElem hk])
  obtain ⟨rest, hrest⟩ := hbegin
  refine step_of_decode_ok hr ?_
  rw [← hrest]
  exact decode_opcode_operands hwf i rest

/-- Settles O29: the lookup is the inverse of an injective map. -/
theorem lookupFindsExactlyTheOpcode : Obligations.LookupFindsExactlyTheOpcode :=
  fun _ _ _ hwf => OpcodeMap.mnemonicOf_eq_some_iff hwf

/-- Settles O30: the failed lookup is the error entry; the default opcodes are the bytes below 0x18; two
operand bytes decode for every mnemonic. -/
theorem invalidOpcodeRaises : Obligations.InvalidOpcodeRaises := by
  refine ⟨fun s hr h => ?_, fun b => ?_, decodeOperands_two_bytes⟩
  · exact ⟨_, step_of_invalid_opcode hr h, errorEntered_enterError s _⟩
  · rw [← not_exists, exists_byteOf_defaultOpcodes_iff, Nat.not_lt]

/-- Settles O28: each word is decoded by evaluation. -/
theorem writtenOutWordsDecode : Obligations.WrittenOutWordsDecode := by
  unfold Obligations.WrittenOutWordsDecode
  decide

end Sys2Proof.Machine
end

section
/-! How many bytes a fetch gives, the run of a halted core, and what the host's operations answer: step,
poke, and the two loads (40_cycle.md R91 to R102). -/

namespace Sys2Proof

/-! ## The static checks as propositions -/

theorem pokeWf_iff {a v : Nat} : pokeWf (a, v) = true ↔ a ≤ 255 ∧ v ≤ 255 := by simp [pokeWf]

theorem byteSequenceWf_iff {bs : List Nat} :
    byteSequenceWf bs = true ↔ bs.length ≤ 256 ∧ ∀ v ∈ bs, v ≤ 255 := by simp [byteSequenceWf]

end Sys2Proof

namespace Sys2Proof.Machine

/-! ## The end of a fetch -/

/-- A fetch gives three bytes, or as many as memory has from `pc` on (log entry 8). -/
theorem length_fetchBytes (s : State) : (fetchBytes s).length = min 3 (256 - s.pc.toNat) := by
  have hpc := byte_le s.pc
  rw [fetchBytes_eq]
  split_ifs <;> simp only [List.length_cons, List.length_nil] <;> omega

theorem fetchBytes_getElem?_eq_none {s : State} {k : Nat} (h : 2 < k ∨ 255 < s.pc.toNat + k) :
    (fetchBytes s)[k]? = none := by
  rw [List.getElem?_eq_none_iff, length_fetchBytes]
  omega

/-! ## A halted core -/

theorem step_of_isTerminal {s : State} (h : s.isTerminal) : step s = .next s :=
  step_halted (status_ne_running_of_isTerminal h)

theorem run_of_isTerminal (k : Nat) {s : State} (h : s.isTerminal) : Sys2Proof.core.run k s = .next s := by
  induction k with
  | zero => exact run_zero s
  | succ k ih => exact (run_succ k (step_of_isTerminal h)).trans ih

/-! ## The host's step -/

theorem hostStep_of_running {h : Session} {t : State} (hr : h.core.status = .running)
    (hs : step h.core = .next t) : hostStep h = { core := t, steps := h.steps + 1 } := by
  simp only [hostStep, hr, hs]

theorem hostStep_of_isTerminal {h : Session} (ht : h.core.isTerminal) : hostStep h = h := by
  rcases ht with hs | hs <;> simp only [hostStep, hs]

/-! ## Poke -/

theorem poke_of_allowed {h : Session} {a v : Nat} (hs : h.steps = 0) (ha : a ≤ 255) (hv : v ≤ 255) :
    poke h a v = some { h with core := h.core.setByte a (BitVec.ofNat 8 v) } :=
  if_pos ⟨hs, pokeWf_iff.mpr ⟨ha, hv⟩⟩

theorem poke_of_not_allowed {h : Session} {a v : Nat} (hno : h.steps ≠ 0 ∨ 255 < a ∨ 255 < v) :
    poke h a v = none := by
  refine if_neg ?_
  rintro ⟨hs, hwf⟩
  obtain ⟨ha, hv⟩ := pokeWf_iff.mp hwf
  omega

/-! ## Pokes in order -/

/-- Pokes change memory only. -/
theorem applyPokes_eq_of_mem (ps : List (Nat × Nat)) (s : State) :
    applyPokes s ps = { s with mem := (applyPokes s ps).mem } := by
  induction ps generalizing s with
  | nil => rfl
  | cons p ps ih => exact ih (s.setByte p.1 (BitVec.ofNat 8 p.2))

/-- A cell that no poke names reads as before. -/
theorem byteAt_applyPokes_of_notMem {ps : List (Nat × Nat)} {a : Nat} (h : a ∉ ps.map Prod.fst)
    (s : State) : (applyPokes s ps).byteAt a = s.byteAt a := by
  induction ps generalizing s with
  | nil => rfl
  | cons p ps ih =>
    rw [List.map_cons, List.mem_cons, not_or] at h
    obtain ⟨hne, hps⟩ := h
    exact (ih hps _).trans (s.byteAt_setByte_other _ hne)

/-- A cell that exactly one poke names holds the value of that poke. -/
theorem byteAt_applyPokes_of_mem {ps : List (Nat × Nat)} {a v : Nat} (hnd : (ps.map Prod.fst).Nodup)
    (h : (a, v) ∈ ps) (s : State) : (applyPokes s ps).byteAt a = BitVec.ofNat 8 v := by
  induction ps generalizing s with
  | nil => cases h
  | cons p ps ih =>
    obtain ⟨hp, hps⟩ := List.nodup_cons.mp hnd
    rcases List.mem_cons.mp h with rfl | h
    · exact (byteAt_applyPokes_of_notMem hp _).trans (s.byteAt_setByte_same a _)
    · exact ih hps h _

/-! ## The load of a byte sequence -/

/-- The pokes of a byte sequence name the addresses from 0, each once. -/
theorem map_fst_range_zip (bs : List Nat) :
    ((List.range bs.length).zip bs).map Prod.fst = List.range bs.length :=
  List.map_fst_zip (by rw [List.length_range])

theorem mem_range_zip {bs : List Nat} {k v : Nat} (h : bs[k]? = some v) :
    (k, v) ∈ (List.range bs.length).zip bs := by
  obtain ⟨hk, -⟩ := List.getElem?_eq_some_iff.mp h
  exact List.mem_of_getElem? (List.getElem?_zip_eq_some.mpr ⟨List.getElem?_range hk, h⟩)

theorem pokesWf_range_zip {bs : List Nat} (h : byteSequenceWf bs = true) :
    pokesWf ((List.range bs.length).zip bs) = true := by
  obtain ⟨hlen, hval⟩ := byteSequenceWf_iff.mp h
  refine List.all_eq_true.mpr fun ⟨a, v⟩ hmem => ?_
  obtain ⟨ha, hv⟩ := List.of_mem_zip hmem
  have hlt : a < bs.length := List.mem_range.mp ha
  exact pokeWf_iff.mpr ⟨by omega, hval v hv⟩

/-- A well-formed byte sequence loads as its pokes of the addresses from 0 (40_cycle.md R102). -/
theorem loadBytes_of_wf {bs : List Nat} (cfg : Config) (h : byteSequenceWf bs = true) :
    loadBytes cfg bs =
      some { core := applyPokes (State.construct cfg) ((List.range bs.length).zip bs), steps := 0 } :=
  (if_pos h).trans (if_pos (pokesWf_range_zip h))

theorem loadBytes_of_not_wf {bs : List Nat} (cfg : Config) (h : ¬ byteSequenceWf bs = true) :
    loadBytes cfg bs = none :=
  if_neg h

end Sys2Proof.Machine
end

section
/-! The statements of the family 40_cycle.md, each from the lemmas above. -/

namespace Sys2Proof.Machine

/-- Settles O51: by induction on the number of steps, each of which stays. -/
theorem runOfAHaltedCoreStays : Obligations.RunOfAHaltedCoreStays :=
  fun k _ h => run_of_isTerminal k h

/-- Settles O54: the load is the pokes of the addresses from 0, each of which is named once; a sequence
that fails the check is refused. -/
theorem loadedBytesAreTheLaunchMemory : Obligations.LoadedBytesAreTheLaunchMemory := by
  refine ⟨fun cfg bs hlen hval => ?_, fun cfg bs hbad => ?_⟩
  · have hwf : byteSequenceWf bs = true := byteSequenceWf_iff.mpr ⟨hlen, hval⟩
    refine ⟨_, loadBytes_of_wf cfg hwf, rfl, ?_, fun k v hk => ?_, fun k hk => ?_, ?_⟩
    · exact wf_applyPokes _ (pokesWf_range_zip hwf) (construct_mem_wf cfg)
    · have hnd : (((List.range bs.length).zip bs).map Prod.fst).Nodup := by
        rw [map_fst_range_zip]
        exact List.nodup_range
      rw [byteAt_applyPokes_of_mem hnd (mem_range_zip hk)]
      exact toNat_byte_of_le (hval v (List.mem_of_getElem? hk))
    · have hout : k ∉ ((List.range bs.length).zip bs).map Prod.fst := by
        rw [map_fst_range_zip, List.mem_range]
        omega
      exact byteAt_applyPokes_of_notMem hout (State.construct cfg)
    · exact applyPokes_eq_of_mem _ (State.construct cfg)
  · refine loadBytes_of_not_wf cfg fun hwf => ?_
    obtain ⟨hlen, hval⟩ := byteSequenceWf_iff.mp hwf
    rcases hbad with hlong | ⟨v, hv, hbig⟩
    · omega
    · exact absurd (hval v hv) (Nat.not_le.mpr hbig)

/-- Settles O25: by the step's equation for a decoded instruction; the fetch has byte `k` where memory
has the cell, and ends there or after three bytes. -/
theorem stepRunsTheDecodedInstruction : Obligations.StepRunsTheDecodedInstruction :=
  ⟨fun _ _ hr hd => step_of_decode_ok hr hd, fun _ _ hk hp => fetchBytes_getElem? hk hp,
    fun _ _ h => fetchBytes_getElem?_eq_none h⟩

/-- Settles O35: a terminal status is not the running one, and only a running core moves. -/
theorem haltedCoreDoesNotChange : Obligations.HaltedCoreDoesNotChange :=
  fun _ h => step_of_isTerminal h

/-- Settles O55: an allowed poke sets one byte of memory; the check refuses every other. -/
theorem pokeWritesOneCellBeforeTheFirstStep : Obligations.PokeWritesOneCellBeforeTheFirstStep := by
  refine fun h a v => ⟨fun hs ha hv => ?_, poke_of_not_allowed⟩
  refine ⟨_, poke_of_allowed hs ha hv, hs, ?_, fun b hb => ?_, rfl⟩
  · rw [State.byteAt_setByte_same, toNat_byte_of_le hv]
  · exact h.core.byteAt_setByte_other _ (by simpa using hb)

/-- Settles O56: every step of the core has a next state, so the host's step of a running core counts. -/
theorem everyStepCountsOnce : Obligations.EveryStepCountsOnce := by
  refine ⟨fun h hr => ?_, fun _ ht => hostStep_of_isTerminal ht⟩
  obtain ⟨t, ht⟩ := step_total h.core
  rw [hostStep_of_running hr ht]
  exact ⟨rfl, ht⟩

end Sys2Proof.Machine
end

section
/-! How an instruction that ends with `Advance(n)` completes or raises, what the step does at the opcode
of an instruction with no operand byte or with one, and the meanings of HALT, INIT, SET and SAVE
(41_control_select.md). -/

namespace Sys2Proof.Machine

/-! ## The frame of an update -/

theorem KeptExcept.setPc {ks : List Byte} {cells : List Nat} {s u : State} (h : KeptExcept ks cells s u)
    (p : Byte) : KeptExcept ks cells s (u.setPc p) := h

theorem keptExcept_setCur (s : State) (c : Byte) : KeptExcept [] [] s (s.setCur c) :=
  ⟨fun _ _ => rfl, fun _ _ => rfl, rfl, rfl, rfl⟩

theorem keptExcept_setCurrent (s : State) (v : Byte) : KeptExcept [s.cur] [] s (s.setCurrent v) :=
  ⟨fun _ hi => s.reg_setReg_other v (List.ne_of_not_mem_cons hi), fun _ _ => rfl, rfl, rfl, rfl⟩

/-! ## The transaction that ends with an advance -/

/-- With room to advance, the transaction takes its effect with `pc` moved (40_cycle.md R95). -/
theorem commit_advance_of_room (s : State) {u : State} {n : Nat} (h : u.pc.toNat + n ≤ 255) :
    commit s (advance u n) = .next (u.setPc (BitVec.ofNat 8 (u.pc.toNat + n))) := by
  rw [commit_advance_eq, if_pos h]

/-- Without room to advance, the transaction is the error entry of the next `pc` (R95, decision D4). -/
theorem commit_advance_of_no_room (s : State) {u : State} {n : Nat} (h : 255 < u.pc.toNat + n) :
    commit s (advance u n) = .next (s.enterError (.outOfRange (u.pc.toNat + n))) := by
  rw [commit_advance_eq, if_neg (Nat.not_le.mpr h)]

/-- A step that is a transaction whose advance passes the last address by one raises OutOfRange(256). -/
theorem stepRaises_of_advance_to_256 {s u : State} {n : Nat} (h : step s = commit s (advance u n))
    (hp : u.pc.toNat + n = 256) : StepRaises s (.outOfRange 256) := by
  rw [commit_advance_of_no_room s (by omega), hp] at h
  exact ⟨_, h, errorEntered_enterError s _⟩

/-! ## The step at the opcode of an instruction without operand bytes -/

/-- An instruction that decodes from its opcode alone is executed at every address. -/
theorem step_of_atOpcode_no_operand {s : State} {m : Mnemonic} {i : Instr} (h : AtOpcode s m)
    (hm : ∀ bs, decodeOperands m bs = .ok i) : step s = exec i s := by
  obtain ⟨rest, hf⟩ := fetchBytes_cons s
  exact step_of_decode_ok h.1 ((decode_of_atOpcode h hf).trans (hm rest))

/-! ## The step at the opcode of an instruction with one operand byte -/

section OneOperand
variable {s : State} {m : Mnemonic} {mk : Byte → Instr}

/-- The operand is the byte at `pc + 1`, where memory has it (40_cycle.md R94). -/
theorem step_of_atOpcode_one_operand (h : AtOpcode s m) (hm : ∀ bs, decodeOperands m bs = oneOperand mk bs)
    (hp : s.pc.toNat + 1 ≤ 255) : step s = exec (mk (s.byteAt (s.pc.toNat + 1))) s := by
  obtain ⟨rest, hf⟩ := fetchBytes_cons_cons hp
  exact step_of_decode_ok h.1 ((decode_of_atOpcode h hf).trans (hm _))

/-- At the last address the fetch gives the opcode byte only. -/
theorem fetchBytes_of_pc_eq_255 (hp : s.pc.toNat = 255) : fetchBytes s = [s.byteAt s.pc.toNat] := by
  rw [fetchBytes_eq, if_neg (by omega), if_neg (by omega)]

/-- At the last address the operand byte is missing, and its read raises (R94). -/
theorem stepRaises_of_missing_operand (h : AtOpcode s m) (hm : ∀ bs, decodeOperands m bs = oneOperand mk bs)
    (hp : s.pc.toNat = 255) : StepRaises s (.outOfRange 256) := by
  have hd : decode s.cfg.opc (fetchBytes s) = .error (.missingByte 1) :=
    (decode_of_atOpcode h (fetchBytes_of_pc_eq_255 hp)).trans (hm [])
  have hstep : step s = .next (s.enterError (.outOfRange (s.pc.toNat + 1))) := step_of_decode_error h.1 hd
  rw [hp] at hstep
  exact ⟨_, hstep, errorEntered_enterError s _⟩

/-- An instruction of two bytes that advances past itself raises OutOfRange(256) at the last two
addresses: at 254 by its advance, at 255 by the read of its operand. -/
theorem stepRaises_of_one_operand_advance_two (h : AtOpcode s m)
    (hm : ∀ bs, decodeOperands m bs = oneOperand mk bs)
    (hexec : ∀ b, ∃ u : State, u.pc = s.pc ∧ exec (mk b) s = commit s (advance u 2))
    (hp : 254 ≤ s.pc.toNat) : StepRaises s (.outOfRange 256) := by
  have hpc := byte_le s.pc
  obtain hlast | hroom : s.pc.toNat = 255 ∨ s.pc.toNat + 1 = 255 := by omega
  · exact stepRaises_of_missing_operand h hm hlast
  · obtain ⟨u, hu, hcommit⟩ := hexec (s.byteAt (s.pc.toNat + 1))
    have hstep := (step_of_atOpcode_one_operand h hm hroom.le).trans hcommit
    exact stepRaises_of_advance_to_256 hstep (by rw [hu]; omega)

end OneOperand

/-! ## The meanings of 41_control_select.md -/

theorem exec_halt_eq (s : State) : exec .halt s = .next s.halt := rfl

theorem exec_init_eq (s : State) : exec .init s = commit s (advance (s.setCur 0) 1) := rfl

theorem exec_set_eq (imm : Byte) (s : State) :
    exec (.set imm) s = commit s (advance (s.setCur imm) 2) := rfl

theorem exec_save_eq (imm : Byte) (s : State) :
    exec (.save imm) s = commit s (advance (s.setCurrent imm) 2) := rfl

/-- Selecting a register and advancing, where there is room: `cur` and `pc` are written, nothing else
(INIT, SET). -/
theorem commit_advance_setCur_of_room {s : State} (c : Byte) {n : Nat} (hp : s.pc.toNat + n ≤ 255) :
    ∃ t, commit s (advance (s.setCur c) n) = .next t ∧ t.cur = c ∧ t.pc.toNat = s.pc.toNat + n ∧
      t.eq = s.eq ∧ t.out = s.out ∧ KeptExcept [] [] s t :=
  ⟨_, commit_advance_of_room s hp, rfl, toNat_byte_of_le hp, rfl, rfl, (keptExcept_setCur s c).setPc _⟩

/-- Writing the current register and advancing, where there is room: `x[cur]` and `pc` are written,
nothing else. -/
theorem commit_advance_setCurrent_of_room {s : State} (v : Byte) {n : Nat} (hp : s.pc.toNat + n ≤ 255) :
    ∃ t, commit s (advance (s.setCurrent v) n) = .next t ∧ t.reg s.cur = v ∧
      t.pc.toNat = s.pc.toNat + n ∧ t.cur = s.cur ∧ t.eq = s.eq ∧ t.out = s.out ∧
      KeptExcept [s.cur] [] s t :=
  ⟨_, commit_advance_of_room s hp, s.reg_setReg_same s.cur v, toNat_byte_of_le hp, rfl, rfl, rfl,
    (keptExcept_setCurrent s v).setPc _⟩

end Sys2Proof.Machine
end

section
/-! The statements of the family 41_control_select.md, each from the lemmas above. -/

namespace Sys2Proof.Machine

/-- Settles O1: HALT writes the run state only, and a core in `halted_normal` stays. -/
theorem haltStopsTheCoreNormally : Obligations.HaltStopsTheCoreNormally := by
  refine ⟨rfl, fun s => ⟨s.halt, exec_halt_eq s, ?_⟩,
    fun s h => (step_of_atOpcode_halt h).trans (exec_halt_eq s).symm⟩
  have hstay : step s.halt = .next s.halt := step_of_isTerminal (.inl s.halt_status)
  exact ⟨rfl, rfl, rfl, rfl, rfl, rfl, rfl, fun _ _ => rfl, fun _ _ => rfl, hstay⟩

/-- Settles O2: INIT has no operand byte, so only its advance can raise, and it does at address 255. -/
theorem initSelectsRegisterZero : Obligations.InitSelectsRegisterZero := by
  have hstep (s : State) (h : AtOpcode s .init) : step s = exec .init s :=
    step_of_atOpcode_no_operand h fun _ => rfl
  refine ⟨rfl, fun s hp => commit_advance_setCur_of_room 0 hp, hstep, fun s h hp => ?_⟩
  have hcommit := (hstep s h).trans (exec_init_eq s)
  exact stepRaises_of_advance_to_256 hcommit (by rw [State.setCur_pc, hp])

/-- Settles O3: `cur` is the operand byte whatever it is; the last two addresses leave no room. -/
theorem setSelectsTheRegisterNamedByItsImmediate : Obligations.SetSelectsTheRegisterNamedByItsImmediate :=
  ⟨fun _ => rfl, fun imm _ hp => commit_advance_setCur_of_room imm hp,
    fun _ h hp => step_of_atOpcode_one_operand h (fun _ => rfl) hp,
    fun s h hp => stepRaises_of_one_operand_advance_two h (fun _ => rfl)
      (fun imm => ⟨_, s.setCur_pc imm, exec_set_eq imm s⟩) hp⟩

/-- Settles O4: the operand byte is written to the register `cur` names; the last two addresses leave no
room. -/
theorem saveWritesItsImmediateToTheCurrentRegister :
    Obligations.SaveWritesItsImmediateToTheCurrentRegister :=
  ⟨fun _ => rfl, fun imm _ hp => commit_advance_setCurrent_of_room imm hp,
    fun _ h hp => step_of_atOpcode_one_operand h (fun _ => rfl) hp,
    fun s h hp => stepRaises_of_one_operand_advance_two h (fun _ => rfl)
      (fun imm => ⟨_, s.setCurrent_pc imm, exec_save_eq imm s⟩) hp⟩

end Sys2Proof.Machine
end

section
/-! The table of results of 42_arithmetic.md R120, what the step does at the opcode of an instruction with
two operand bytes, and the meanings of the six arithmetic instructions (R121 to R126). -/

namespace Sys2Proof.Machine

/-! ## The ALU -/

/-- The byte of a number is the number modulo 256, negative ones included (00_scope.md R8). -/
theorem toNat_reduce256 (n : Int) : ((reduce256 n).toNat : Int) = n % 256 := by
  rw [reduce256, BitVec.toNat_ofInt]
  exact Int.toNat_of_nonneg (Int.emod_nonneg n (by decide))

/-- For a natural number the reduction is that of the naturals. -/
theorem toNat_reduce256_natCast (n : Nat) : (reduce256 n).toNat = n % 256 := by
  exact_mod_cast toNat_reduce256 n

theorem toNat_aluAdd (a b : Byte) : (aluAdd a b).toNat = (a.toNat + b.toNat) % 256 :=
  toNat_reduce256_natCast (a.toNat + b.toNat)

theorem toNat_aluSub (a b : Byte) :
    ((aluSub a b).toNat : Int) = ((a.toNat : Int) - (b.toNat : Int)) % 256 :=
  toNat_reduce256 _

theorem toNat_aluMul (a b : Byte) : (aluMul a b).toNat = (a.toNat * b.toNat) % 256 :=
  toNat_reduce256_natCast (a.toNat * b.toNat)

theorem aluDiv_of_zero (r1 a : Byte) : aluDiv r1 a 0 = .error (.divisionByZero r1) := if_pos rfl

theorem aluDiv_of_nonzero (r1 a : Byte) {b : Byte} (h : b ≠ 0) :
    aluDiv r1 a b = .ok (BitVec.ofNat 8 (a.toNat / b.toNat)) :=
  if_neg h

/-- A quotient of bytes is a byte: it needs no reduction (decision D3). -/
theorem toNat_byte_div (a b : Byte) : (BitVec.ofNat 8 (a.toNat / b.toNat)).toNat = a.toNat / b.toNat :=
  toNat_byte_of_le ((Nat.div_le_self _ _).trans (byte_le a))

/-! ## The step at the opcode of an instruction with two operand bytes -/

theorem stepRaises_of_enterError {s : State} {e : RaisedError} (h : step s = .next (s.enterError e)) :
    StepRaises s e :=
  ⟨_, h, errorEntered_enterError s e⟩

section TwoOperands
variable {s : State} {m : Mnemonic} {mk : Byte → Byte → Instr}

/-- The operands are the bytes at `pc + 1` and `pc + 2`, where memory has them (40_cycle.md R94). -/
theorem step_of_atOpcode_two_operands (h : AtOpcode s m)
    (hm : ∀ bs, decodeOperands m bs = twoOperands mk bs) (hp : s.pc.toNat + 2 ≤ 255) :
    step s = exec (mk (s.byteAt (s.pc.toNat + 1)) (s.byteAt (s.pc.toNat + 2))) s := by
  have hf : fetchBytes s =
      [s.byteAt s.pc.toNat, s.byteAt (s.pc.toNat + 1), s.byteAt (s.pc.toNat + 2)] := by
    rw [fetchBytes_eq, if_pos hp]
  exact step_of_decode_ok h.1 ((decode_of_atOpcode h hf).trans (hm _))

/-- At the last two addresses an operand byte is missing: the second at 254, already the first at 255.
Either would lie at address 256 (R94). -/
theorem stepRaises_of_missing_second_operand (h : AtOpcode s m)
    (hm : ∀ bs, decodeOperands m bs = twoOperands mk bs) (hp : 254 ≤ s.pc.toNat) :
    StepRaises s (.outOfRange 256) := by
  have hpc := byte_le s.pc
  obtain ⟨k, hk, hd⟩ : ∃ k, s.pc.toNat + k = 256 ∧
      decode s.cfg.opc (fetchBytes s) = .error (.missingByte k) := by
    obtain hlast | hlast : s.pc.toNat = 255 ∨ s.pc.toNat = 254 := by omega
    · exact ⟨1, by omega,
        (decode_of_atOpcode h (fetchBytes_of_pc_eq_255 hlast)).trans (hm [])⟩
    · have hf : fetchBytes s = [s.byteAt s.pc.toNat, s.byteAt (s.pc.toNat + 1)] := by
        rw [fetchBytes_eq, if_neg (by omega), if_pos (by omega)]
      exact ⟨2, by omega, (decode_of_atOpcode h hf).trans (hm _)⟩
  have hstep := step_of_decode_error h.1 hd
  rw [decodeErrorRaised, hk] at hstep
  exact stepRaises_of_enterError hstep

/-- An instruction of three bytes that advances past itself raises OutOfRange(256) at the last three
addresses: at 253 by its advance, at 254 and 255 by the read of its operands. -/
theorem stepRaises_of_two_operands_advance_three (h : AtOpcode s m)
    (hm : ∀ bs, decodeOperands m bs = twoOperands mk bs)
    (hexec : ∀ b0 b1, ∃ v, exec (mk b0 b1) s = commit s (advance (s.setCurrent v) 3))
    (hp : 253 ≤ s.pc.toNat) : StepRaises s (.outOfRange 256) := by
  obtain hroom | hlast : s.pc.toNat = 253 ∨ 254 ≤ s.pc.toNat := by omega
  · obtain ⟨v, hcommit⟩ := hexec (s.byteAt (s.pc.toNat + 1)) (s.byteAt (s.pc.toNat + 2))
    have hstep := (step_of_atOpcode_two_operands h hm (by omega)).trans hcommit
    exact stepRaises_of_advance_to_256 hstep (by rw [State.setCurrent_pc, hroom])
  · exact stepRaises_of_missing_second_operand h hm hlast

end TwoOperands

/-! ## The meanings of 42_arithmetic.md -/

theorem exec_add_eq (r0 r1 : Byte) (s : State) :
    exec (.add r0 r1) s = commit s (advance (s.setCurrent (aluAdd (s.reg r0) (s.reg r1))) 3) := rfl

theorem exec_sub_eq (r0 r1 : Byte) (s : State) :
    exec (.sub r0 r1) s = commit s (advance (s.setCurrent (aluSub (s.reg r0) (s.reg r1))) 3) := rfl

theorem exec_mul_eq (r0 r1 : Byte) (s : State) :
    exec (.mul r0 r1) s = commit s (advance (s.setCurrent (aluMul (s.reg r0) (s.reg r1))) 3) := rfl

theorem exec_inc_eq (r : Byte) (s : State) :
    exec (.inc r) s = commit s (advance (s.setReg r (aluAdd (s.reg r) 1)) 1) := rfl

theorem exec_dec_eq (r : Byte) (s : State) :
    exec (.dec r) s = commit s (advance (s.setReg r (aluSub (s.reg r) 1)) 1) := rfl

/-! ## Writing the result of two registers to the current register (ADD, SUB, MUL) -/

/-- An instruction of three bytes that writes the ALU result `f` of its two registers to `x[cur]`, said
with the property `P` by which its rule gives that result: its effect and frame, its operands in memory,
and where it raises. -/
theorem writes_result_of_two_operands {m : Mnemonic} {mk : Byte → Byte → Instr} {f : Byte → Byte → Byte}
    (P : Byte → Byte → Byte → Prop) (hf : ∀ a b, P a b (f a b))
    (hm : ∀ bs, decodeOperands m bs = twoOperands mk bs)
    (hexec : ∀ r0 r1 s, exec (mk r0 r1) s =
      commit s (advance (s.setCurrent (f (s.reg r0) (s.reg r1))) 3)) :
    (∀ (r0 r1 : Byte) (s : State), s.pc.toNat + 3 ≤ 255 → ∃ t, exec (mk r0 r1) s = .next t ∧
      P (s.reg r0) (s.reg r1) (t.reg s.cur) ∧ t.pc.toNat = s.pc.toNat + 3 ∧ t.cur = s.cur ∧
      t.eq = s.eq ∧ t.out = s.out ∧ KeptExcept [s.cur] [] s t) ∧
    (∀ s : State, AtOpcode s m → s.pc.toNat + 2 ≤ 255 →
      step s = exec (mk (s.byteAt (s.pc.toNat + 1)) (s.byteAt (s.pc.toNat + 2))) s) ∧
    (∀ s : State, AtOpcode s m → 253 ≤ s.pc.toNat → StepRaises s (.outOfRange 256)) := by
  refine ⟨fun r0 r1 s hp => ?_, fun s h hp => step_of_atOpcode_two_operands h hm hp,
    fun s h hp => stepRaises_of_two_operands_advance_three h hm (fun r0 r1 => ⟨_, hexec r0 r1 s⟩) hp⟩
  obtain ⟨t, ht, hreg, hrest⟩ :=
    commit_advance_setCurrent_of_room (f (s.reg r0) (s.reg r1)) hp
  exact ⟨t, (hexec r0 r1 s).trans ht, hreg ▸ hf _ _, hrest⟩

/-! ## Writing the register that the operand byte names (INC, DEC) -/

theorem keptExcept_setReg (s : State) (r v : Byte) : KeptExcept [r] [] s (s.setReg r v) :=
  ⟨fun _ hi => s.reg_setReg_other v (List.ne_of_not_mem_cons hi), fun _ _ => rfl, rfl, rfl, rfl⟩

/-- Writing a register and advancing, where there is room: that register and `pc` are written, nothing
else. -/
theorem commit_advance_setReg_of_room {s : State} (r v : Byte) {n : Nat} (hp : s.pc.toNat + n ≤ 255) :
    ∃ t, commit s (advance (s.setReg r v) n) = .next t ∧ t.reg r = v ∧ t.pc.toNat = s.pc.toNat + n ∧
      t.cur = s.cur ∧ t.eq = s.eq ∧ t.out = s.out ∧ KeptExcept [r] [] s t :=
  ⟨_, commit_advance_of_room s hp, s.reg_setReg_same r v, toNat_byte_of_le hp, rfl, rfl, rfl,
    (keptExcept_setReg s r v).setPc _⟩

/-- After an advance that keeps memory the fetch begins at the byte that stood `n` after `pc`. -/
theorem fetchBytes_head_after_advance {ks : List Byte} {s t : State} {n : Nat}
    (hkept : KeptExcept ks [] s t) (hpc : t.pc.toNat = s.pc.toNat + n) :
    (fetchBytes t)[0]? = some (s.byteAt (s.pc.toNat + n)) := by
  obtain ⟨-, hmem, -⟩ := hkept
  rw [fetchBytes_head, hpc, hmem _ List.not_mem_nil]

/-- An instruction that writes the ALU result `f` of the register its operand byte names back to that
register and advances by 1, said with the property `P` by which its rule gives that result. The next fetch
begins with the operand byte (70_reset_and_hazards.md R227, decision D27). -/
theorem writes_result_to_operand_register {m : Mnemonic} {mk : Byte → Instr} {f : Byte → Byte}
    (P : Byte → Byte → Prop) (hf : ∀ a, P a (f a)) (hm : ∀ bs, decodeOperands m bs = oneOperand mk bs)
    (hexec : ∀ r s, exec (mk r) s = commit s (advance (s.setReg r (f (s.reg r))) 1)) :
    (∀ (r : Byte) (s : State), s.pc.toNat + 1 ≤ 255 → ∃ t, exec (mk r) s = .next t ∧
      P (s.reg r) (t.reg r) ∧ t.pc.toNat = s.pc.toNat + 1 ∧ t.cur = s.cur ∧ t.eq = s.eq ∧
      t.out = s.out ∧ KeptExcept [r] [] s t) ∧
    (∀ s : State, AtOpcode s m → s.pc.toNat + 1 ≤ 255 →
      step s = exec (mk (s.byteAt (s.pc.toNat + 1))) s ∧
      ∃ t, step s = .next t ∧ (fetchBytes t)[0]? = some (s.byteAt (s.pc.toNat + 1))) ∧
    (∀ s : State, AtOpcode s m → s.pc.toNat = 255 → StepRaises s (.outOfRange 256)) := by
  have heffect (r : Byte) {s : State} (hp : s.pc.toNat + 1 ≤ 255) :=
    commit_advance_setReg_of_room r (f (s.reg r)) hp
  refine ⟨fun r s hp => ?_, fun s h hp => ?_, fun s h hp => stepRaises_of_missing_operand h hm hp⟩
  · obtain ⟨t, ht, hreg, hrest⟩ := heffect r hp
    exact ⟨t, (hexec r s).trans ht, hreg ▸ hf _, hrest⟩
  · have hstep := step_of_atOpcode_one_operand h hm hp
    obtain ⟨t, ht, -, hpc, -, -, -, hkept⟩ := heffect (s.byteAt (s.pc.toNat + 1)) hp
    exact ⟨hstep, t, hstep.trans ((hexec _ s).trans ht), fetchBytes_head_after_advance hkept hpc⟩

end Sys2Proof.Machine
end

section
/-! The statements of the family 42_arithmetic.md, each from the lemmas above. -/

namespace Sys2Proof.Machine

/-- Settles O8: the zero divisor is reported before the advance, which raises at 253; at 254 and 255 an
operand byte is missing, and no divisor is looked at. -/
theorem divWritesTheFloorQuotientOrRaises : Obligations.DivWritesTheFloorQuotientOrRaises := by
  have hstep (s : State) (h : AtOpcode s .div) (hp : s.pc.toNat + 2 ≤ 255) :
      step s = exec (.div (s.byteAt (s.pc.toNat + 1)) (s.byteAt (s.pc.toNat + 2))) s :=
    step_of_atOpcode_two_operands h (fun _ => rfl) hp
  refine ⟨fun _ _ => rfl, fun r0 r1 s hp hne => ?_, hstep, fun s h hp hzero => ?_,
    fun s h hp hne => ?_, fun s h hp => stepRaises_of_missing_second_operand h (fun _ => rfl) hp⟩
  · rw [exec_div_of_nonzero hne]
    obtain ⟨t, ht, hreg, hrest⟩ := commit_advance_setCurrent_of_room
      (BitVec.ofNat 8 ((s.reg r0).toNat / (s.reg r1).toNat)) hp
    exact ⟨t, ht, by rw [hreg, toNat_byte_div], hrest⟩
  · exact stepRaises_of_enterError ((hstep s h hp).trans (exec_div_of_zero hzero))
  · have hcommit := hstep s h (by omega)
    simp only [hp] at hcommit
    rw [exec_div_of_nonzero hne] at hcommit
    exact stepRaises_of_advance_to_256 hcommit (by rw [State.setCurrent_pc, hp])

/-- Settles O5: the ALU's sum is of the registers before the write, so `cur` may be one of them. -/
theorem addWritesTheSumModulo256 : Obligations.AddWritesTheSumModulo256 :=
  ⟨fun _ _ => rfl, writes_result_of_two_operands (fun a b v => v.toNat = (a.toNat + b.toNat) % 256)
    toNat_aluAdd (fun _ => rfl) exec_add_eq⟩

/-- Settles O6: as ADD; a negative difference is reduced as an integer. -/
theorem subWritesTheDifferenceModulo256 : Obligations.SubWritesTheDifferenceModulo256 :=
  ⟨fun _ _ => rfl, writes_result_of_two_operands
    (fun a b v => (v.toNat : Int) = ((a.toNat : Int) - (b.toNat : Int)) % 256)
    toNat_aluSub (fun _ => rfl) exec_sub_eq⟩

/-- Settles O7: as ADD, with the product. -/
theorem mulWritesTheProductModulo256 : Obligations.MulWritesTheProductModulo256 :=
  ⟨fun _ _ => rfl, writes_result_of_two_operands (fun a b v => v.toNat = (a.toNat * b.toNat) % 256)
    toNat_aluMul (fun _ => rfl) exec_mul_eq⟩

/-- Settles O9: the register written is the operand byte's; the advance of 1 leaves `pc` on that byte. -/
theorem incIncrementsItsOperandRegister : Obligations.IncIncrementsItsOperandRegister :=
  ⟨fun _ => rfl, rfl, writes_result_to_operand_register (fun a v => v.toNat = (a.toNat + 1) % 256)
    (fun a => toNat_aluAdd a 1) (fun _ => rfl) exec_inc_eq⟩

/-- Settles O10: as INC; from 0 the difference is reduced as an integer. -/
theorem decDecrementsItsOperandRegister : Obligations.DecDecrementsItsOperandRegister :=
  ⟨fun _ => rfl, rfl, writes_result_to_operand_register
    (fun a v => (v.toNat : Int) = ((a.toNat : Int) - 1) % 256)
    (fun a => toNat_aluSub a 1) (fun _ => rfl) exec_dec_eq⟩

/-- Settles O44: the reduction of an integer to a byte is its remainder modulo 256; a quotient of bytes
needs none. -/
theorem arithmeticLaw : Obligations.ArithmeticLaw := by
  intro a b
  refine ⟨toNat_aluAdd a b, toNat_aluSub a b, toNat_aluMul a b, fun r1 hb => ?_, fun r1 hb => ?_,
    toNat_aluAdd a 1, toNat_aluSub a 1⟩
  · rw [hb, aluDiv_of_zero]
  · exact ⟨_, aluDiv_of_nonzero r1 a hb, toNat_byte_div a b⟩

end Sys2Proof.Machine
end

section
/-! The meanings of PRN and PRA (43_output.md R141, R142), and what the sink shows for an output event
(R143). -/

namespace Sys2Proof.Machine

/-! ## Appending an event and advancing -/

theorem exec_prn_eq (s : State) :
    exec .prn s = commit s (advance (s.emit (.dec (s.reg s.cur))) 1) := rfl

theorem exec_pra_eq (s : State) :
    exec .pra s = commit s (advance (s.emit (.chr (s.reg s.cur))) 1) := rfl

theorem keptExcept_emit (s : State) (e : OutEvent) : KeptExcept [] [] s (s.emit e) :=
  ⟨fun _ _ => rfl, fun _ _ => rfl, rfl, rfl, rfl⟩

/-- Emitting an event and advancing, where there is room: the output and `pc` are written, nothing
else. -/
theorem commit_advance_emit_of_room {s : State} (e : OutEvent) {n : Nat} (hp : s.pc.toNat + n ≤ 255) :
    ∃ t, commit s (advance (s.emit e) n) = .next t ∧ t.out = s.out ++ [e] ∧
      t.pc.toNat = s.pc.toNat + n ∧ t.cur = s.cur ∧ t.eq = s.eq ∧ KeptExcept [] [] s t :=
  ⟨_, commit_advance_of_room s hp, rfl, toNat_byte_of_le hp, rfl, rfl, (keptExcept_emit s e).setPc _⟩

/-- An instruction of one byte that emits the event `mk` makes of `x[cur]`: its effect and frame, the step
at its opcode, and the raise at 255, where the error entry keeps the output as it was. -/
theorem emits_current_register {m : Mnemonic} {i : Instr} {mk : Byte → OutEvent}
    (hm : ∀ bs, decodeOperands m bs = .ok i)
    (hexec : ∀ s, exec i s = commit s (advance (s.emit (mk (s.reg s.cur))) 1)) :
    (∀ s : State, s.pc.toNat + 1 ≤ 255 → ∃ t, exec i s = .next t ∧
      t.out = s.out ++ [mk (s.reg s.cur)] ∧ t.pc.toNat = s.pc.toNat + 1 ∧
      t.cur = s.cur ∧ t.eq = s.eq ∧ KeptExcept [] [] s t) ∧
    (∀ s : State, AtOpcode s m → step s = exec i s) ∧
    (∀ s : State, AtOpcode s m → s.pc.toNat = 255 → StepRaises s (.outOfRange 256)) := by
  have hstep (s : State) (h : AtOpcode s m) : step s = exec i s := step_of_atOpcode_no_operand h hm
  refine ⟨fun s hp => ?_, hstep, fun s h hp => ?_⟩
  · rw [hexec]
    exact commit_advance_emit_of_room _ hp
  · exact stepRaises_of_advance_to_256 ((hstep s h).trans (hexec s)) (by rw [State.emit_pc, hp])

/-! ## The decimal digits of a byte -/

/-- A byte has one, two or three decimal digits, by its size. -/
theorem decimalDigits_cases (v : Byte) :
    (v.toNat < 10 ∧ decimalDigits v = [v.toNat]) ∨
    (10 ≤ v.toNat ∧ v.toNat < 100 ∧ decimalDigits v = [v.toNat / 10, v.toNat % 10]) ∨
    (100 ≤ v.toNat ∧ decimalDigits v = [v.toNat / 100, v.toNat / 10 % 10, v.toNat % 10]) := by
  obtain h | h | h : v.toNat < 10 ∨ (10 ≤ v.toNat ∧ v.toNat < 100) ∨ 100 ≤ v.toNat := by omega
  · exact .inl ⟨h, if_pos h⟩
  · exact .inr (.inl ⟨h.1, h.2, (if_neg (by omega)).trans (if_pos h.2)⟩)
  · exact .inr (.inr ⟨h, (if_neg (by omega)).trans (if_neg (by omega))⟩)

theorem decimalDigits_ne_nil (v : Byte) : decimalDigits v ≠ [] := by
  obtain ⟨-, hd⟩ | ⟨-, -, hd⟩ | ⟨-, hd⟩ := decimalDigits_cases v <;> simp [hd]

/-- The leading digit of three is at most 2, since a byte is at most 255. -/
theorem decimalDigits_le_nine {v : Byte} {d : Nat} (h : d ∈ decimalDigits v) : d ≤ 9 := by
  have hv := byte_le v
  obtain ⟨hlt, hd⟩ | ⟨-, hlt, hd⟩ | ⟨-, hd⟩ := decimalDigits_cases v <;>
    simp only [hd, List.mem_cons, List.not_mem_nil, or_false] at h <;> omega

theorem foldl_decimalDigits (v : Byte) :
    (decimalDigits v).foldl (fun n d => 10 * n + d) 0 = v.toNat := by
  obtain ⟨-, hd⟩ | ⟨-, -, hd⟩ | ⟨-, hd⟩ := decimalDigits_cases v <;>
    simp only [hd, List.foldl_cons, List.foldl_nil] <;> omega

/-- Only zero is written with a leading zero, and then that is its one digit. -/
theorem decimalDigits_no_leading_zero (v : Byte) :
    decimalDigits v = [0] ∨ (decimalDigits v).head? ≠ some 0 := by
  obtain ⟨-, hd⟩ | ⟨hge, -, hd⟩ | ⟨hge, hd⟩ := decimalDigits_cases v <;>
    rw [hd, List.head?_cons, ne_eq, Option.some_inj]
  · exact (em (v.toNat = 0)).imp_left (congrArg ([·]))
  · exact .inr (by omega)
  · exact .inr (by omega)

/-! ## Rendering -/

theorem OutEvent.render_chr (v : Byte) : (OutEvent.chr v).render = [v.toNat] := rfl

theorem OutEvent.render_dec (v : Byte) :
    (OutEvent.dec v).render = (decimalDigits v).map (48 + ·) ++ [0x0A] := rfl

theorem render_append (es fs : List OutEvent) : render (es ++ fs) = render es ++ render fs :=
  List.flatMap_append

end Sys2Proof.Machine
end

section
/-! The statements of the family 43_output.md, each from the lemmas above. -/

namespace Sys2Proof.Machine

/-- Settles O11: PRN has no operand byte, so only its advance can raise, and it does at address 255. -/
theorem prnEmitsTheCurrentRegisterAsANumber : Obligations.PrnEmitsTheCurrentRegisterAsANumber :=
  ⟨rfl, emits_current_register (fun _ => rfl) exec_prn_eq⟩

/-- Settles O12: as PRN, with the character event. -/
theorem praEmitsTheCurrentRegisterAsACharacterCode :
    Obligations.PraEmitsTheCurrentRegisterAsACharacterCode :=
  ⟨rfl, emits_current_register (fun _ => rfl) exec_pra_eq⟩

/-- Settles O57: the digits of `Dec(v)` are `decimalDigits v`, one, two or three by the size of `v`. -/
theorem eventsRenderAsDecimalLinesAndCharacters : Obligations.EventsRenderAsDecimalLinesAndCharacters :=
  ⟨OutEvent.render_chr,
    fun v => ⟨decimalDigits v, OutEvent.render_dec v, fun _ => decimalDigits_le_nine, foldl_decimalDigits v,
      decimalDigits_no_leading_zero v, decimalDigits_ne_nil v⟩,
    render_append⟩

end Sys2Proof.Machine
end

section
/-! The push and pop sequences of 44_stack.md R150 and R151, and the meanings of PUSH, POP, CALL and RET
with room to complete (R152 to R155). -/

namespace Sys2Proof.Machine

/-! ## Bytes modulo 256 -/

theorem toNat_byte_add_one (b : Byte) : (b + 1).toNat = (b.toNat + 1) % 256 := BitVec.toNat_add b 1

theorem toNat_byte_sub_one (b : Byte) : ((b - 1).toNat : Int) = ((b.toNat : Int) - 1) % 256 := by
  have hb := byte_le b
  have hnat : (b - 1).toNat = (255 + b.toNat) % 256 := BitVec.toNat_sub b 1
  omega

/-- The decrement of 0 modulo 256. -/
theorem byte_eq_255_of_toNat_eq_sub_one {a b : Byte} (h : (a.toNat : Int) = ((b.toNat : Int) - 1) % 256)
    (hb : b = 0) : a = 255 := by
  rw [← toNat_byte_sub_one, hb] at h
  exact BitVec.eq_of_toNat_eq (Int.ofNat_inj.mp h)

/-! ## Frames -/

/-- What two updates in a row keep: all that neither of them is allowed to change. -/
theorem KeptExcept.trans {ks ks' : List Byte} {cells cells' : List Nat} {s t u : State}
    (hst : KeptExcept ks cells s t) (htu : KeptExcept ks' cells' t u) :
    KeptExcept (ks ++ ks') (cells ++ cells') s u := by
  obtain ⟨hregs, hmem, hstatus, herr, hcfg⟩ := hst
  obtain ⟨hregs', hmem', hstatus', herr', hcfg'⟩ := htu
  refine ⟨fun j hj => ?_, fun a ha => ?_, hstatus'.trans hstatus, herr'.trans herr, hcfg'.trans hcfg⟩
  · have hfirst : j ∉ ks := fun h => hj (List.mem_append_left ks' h)
    have hsecond : j ∉ ks' := fun h => hj (List.mem_append_right ks h)
    exact (hregs' j hsecond).trans (hregs j hfirst)
  · have hfirst : a ∉ cells := fun h => ha (List.mem_append_left cells' h)
    have hsecond : a ∉ cells' := fun h => ha (List.mem_append_right cells h)
    exact (hmem' a hsecond).trans (hmem a hfirst)

theorem keptExcept_setByte (s : State) (a : Nat) (v : Byte) : KeptExcept [] [a] s (s.setByte a v) :=
  ⟨fun _ _ => rfl, fun _ hb => s.byteAt_setByte_other v (List.ne_of_not_mem_cons hb), rfl, rfl, rfl⟩

/-! ## The push sequence -/

theorem State.decrementSp_reg_sp (s : State) : s.decrementSp.reg 255 = s.reg 255 - 1 :=
  s.reg_setReg_same spIndex _

/-- The current register after the decrement: with `cur = 255` the decremented stack pointer (decisions
D10, D11). -/
theorem State.decrementSp_current (s : State) :
    s.decrementSp.current = if s.cur = 255 then s.decrementSp.reg 255 else s.reg s.cur := by
  split
  · rename_i hcur
    rw [State.current, State.decrementSp_cur, hcur]
  · rename_i hcur
    exact s.reg_setReg_other _ hcur

/-- A push writes register 255 and cell 255, nothing else (R150). -/
theorem keptExcept_pushed (s : State) (v : Byte) :
    KeptExcept [255] [255] s (s.decrementSp.setByte stackCell v) :=
  (keptExcept_setReg s spIndex _).trans (keptExcept_setByte s.decrementSp stackCell v)

/-- PUSH with room to advance pushes the current register, as the decrement left it (R152). -/
theorem exec_push_of_room {s : State} (hp : s.pc.toNat + 1 ≤ 255) :
    exec .push s = .next ((s.decrementSp.setByte stackCell s.decrementSp.current).setPc
      (BitVec.ofNat 8 (s.pc.toNat + 1))) :=
  (exec_push_eq s).trans (commit_advance_of_room s hp)

/-- CALL whose return address is a byte pushes it and jumps to the current register, as the decrement left
it (R154). -/
theorem exec_call_of_room {s : State} (hp : s.pc.toNat + 1 ≤ 255) :
    exec .call s = .next ((s.decrementSp.setByte stackCell (BitVec.ofNat 8 (s.pc.toNat + 1))).setPc
      s.decrementSp.current) :=
  (exec_call_eq s).trans (if_pos hp)

/-- CALL at the last address raises: the return address 256 is not a byte (R154, decision D4). -/
theorem exec_call_of_pc_eq_255 {s : State} (hp : s.pc.toNat = 255) :
    exec .call s = .next (s.enterError (.outOfRange 256)) := by
  rw [exec_call_eq, if_neg (by omega), hp]

/-! ## The pop sequence -/

section PopAdjustsSp
variable {s : State}

theorem State.adjustSpAfterPop_of_false (h : s.cfg.popAdjustsSp = false) : s.adjustSpAfterPop = s := by
  simp [State.adjustSpAfterPop_def, h]

theorem State.adjustSpAfterPop_reg_sp (h : s.cfg.popAdjustsSp = true) :
    s.adjustSpAfterPop.reg 255 = s.reg 255 + 1 := by
  rw [State.adjustSpAfterPop_reg]
  exact if_pos ⟨h, rfl⟩

theorem State.adjustSpAfterPop_reg_other {j : Byte} (h : j ≠ 255) :
    s.adjustSpAfterPop.reg j = s.reg j := by
  rw [State.adjustSpAfterPop_reg]
  exact if_neg fun ⟨_, hj⟩ => h hj

end PopAdjustsSp

/-- A pop moves the stack pointer at most, whatever the parameter (R151). -/
theorem keptExcept_adjustSpAfterPop (s : State) : KeptExcept [255] [] s s.adjustSpAfterPop :=
  ⟨fun _ hj => State.adjustSpAfterPop_reg_other (List.ne_of_not_mem_cons hj),
    fun a _ => s.adjustSpAfterPop_byteAt a, s.adjustSpAfterPop_status, s.adjustSpAfterPop_err,
    s.adjustSpAfterPop_cfg⟩

/-! ### The state of a POP before its advance

The order of the two writes is R153's: the popped value is delivered, then the stack pointer is
adjusted (decision D12). -/

theorem popped_pc (s : State) (v : Byte) : (s.setCurrent v).adjustSpAfterPop.pc = s.pc :=
  (s.setCurrent v).adjustSpAfterPop_pc

theorem popped_of_false {s : State} (v : Byte) (h : s.cfg.popAdjustsSp = false) :
    (s.setCurrent v).adjustSpAfterPop = s.setCurrent v :=
  State.adjustSpAfterPop_of_false (s := s.setCurrent v) h

theorem popped_reg_cur {s : State} (v : Byte) (h : s.cur ≠ 255) :
    (s.setCurrent v).adjustSpAfterPop.reg s.cur = v :=
  (State.adjustSpAfterPop_reg_other h).trans (s.reg_setReg_same s.cur v)

/-- With `cur = 255` it is the popped value that is incremented. -/
theorem popped_reg_sp {s : State} (v : Byte) (h : s.cfg.popAdjustsSp = true) :
    (s.setCurrent v).adjustSpAfterPop.reg 255 = (if s.cur = 255 then v else s.reg 255) + 1 := by
  rw [State.adjustSpAfterPop_reg_sp (s := s.setCurrent v) h, State.setCurrent_def, State.reg_setReg]
  simp only [eq_comm]

theorem keptExcept_popped (s : State) (v : Byte) :
    KeptExcept [s.cur, 255] [] s (s.setCurrent v).adjustSpAfterPop :=
  (keptExcept_setCurrent s v).trans (keptExcept_adjustSpAfterPop _)

/-- POP with room to advance delivers the byte that the stack pointer names (R153). -/
theorem exec_pop_of_room {s : State} (hp : s.pc.toNat + 1 ≤ 255) :
    exec .pop s = .next ((s.setCurrent (s.byteAt (s.reg 255).toNat)).adjustSpAfterPop.setPc
      (BitVec.ofNat 8 (s.pc.toNat + 1))) := by
  rw [exec_pop_eq, commit_advance_of_room s (by rwa [popped_pc]), popped_pc]
  rfl

end Sys2Proof.Machine
end

section
/-! The statements of the family 44_stack.md, each from the lemmas above; the two consequences of R156
follow from the statements about the instructions alone. -/

namespace Sys2Proof.Machine

/-- Settles O13: the value is read after the decrement and stored in the fixed cell; only the advance can
raise, and it does at address 255. -/
theorem pushDecrementsTheStackPointerAndStoresInCell255 :
    Obligations.PushDecrementsTheStackPointerAndStoresInCell255 := by
  have hstep (s : State) (h : AtOpcode s .push) : step s = exec .push s :=
    step_of_atOpcode_no_operand h fun _ => rfl
  refine ⟨rfl, fun s hp => ⟨_, exec_push_of_room hp, ?_, ?_, toNat_byte_of_le hp, rfl, rfl, rfl,
    (keptExcept_pushed s _).setPc _⟩, hstep, fun s h hp => ?_⟩
  · rw [State.setPc_reg, State.setByte_reg, State.decrementSp_reg_sp, toNat_byte_sub_one]
  · rw [State.setPc_byteAt, stackCell, State.byteAt_setByte_same, State.decrementSp_current]
    rfl
  · exact stepRaises_of_advance_to_256 ((hstep s h).trans (exec_push_eq s))
      (by rw [State.setByte_pc, State.decrementSp_pc, hp])

/-- Settles O14: by the parameter and, where the pointer is adjusted, by whether the popped value is the
new stack pointer. -/
theorem popReadsTheCellTheStackPointerNames : Obligations.PopReadsTheCellTheStackPointerNames := by
  have hstep (s : State) (h : AtOpcode s .pop) : step s = exec .pop s :=
    step_of_atOpcode_no_operand h fun _ => rfl
  refine ⟨rfl, fun s hp => ?_, hstep, fun s h hp => ?_⟩
  · refine ⟨_, exec_pop_of_room hp, fun hc => ?_, fun hc hcur => ⟨popped_reg_cur _ hcur, ?_⟩,
      fun hc hcur => ?_, toNat_byte_of_le hp, State.adjustSpAfterPop_cur _, State.adjustSpAfterPop_eq _,
      State.adjustSpAfterPop_out _, (keptExcept_popped s _).setPc _⟩
    · rw [popped_of_false _ hc]
      obtain ⟨hregs, -⟩ := keptExcept_setCurrent s (s.byteAt (s.reg 255).toNat)
      exact ⟨s.reg_setReg_same s.cur _, hregs⟩
    · rw [State.setPc_reg, popped_reg_sp _ hc, if_neg hcur, toNat_byte_add_one]
    · rw [State.setPc_reg, popped_reg_sp _ hc, if_pos hcur, toNat_byte_add_one]
  · exact stepRaises_of_advance_to_256 ((hstep s h).trans (exec_pop_eq s)) (by rw [popped_pc, hp])

/-- Settles O15: the return address is the value pushed, so at address 255 the push raises. -/
theorem callPushesTheReturnAddressAndJumps : Obligations.CallPushesTheReturnAddressAndJumps := by
  have hstep (s : State) (h : AtOpcode s .call) : step s = exec .call s :=
    step_of_atOpcode_no_operand h fun _ => rfl
  refine ⟨rfl, fun s hp => ⟨_, exec_call_of_room hp, ?_, ?_, s.decrementSp_current, rfl, rfl, rfl,
    (keptExcept_pushed s _).setPc _⟩, hstep, fun s h hp => ?_⟩
  · rw [State.setPc_reg, State.setByte_reg, State.decrementSp_reg_sp, toNat_byte_sub_one]
  · rw [State.setPc_byteAt, stackCell, State.byteAt_setByte_same, toNat_byte_of_le hp]
  · exact stepRaises_of_enterError ((hstep s h).trans (exec_call_of_pc_eq_255 hp))

/-- Settles O16: a pop into `pc` neither advances nor raises. -/
theorem retPopsTheProgramCounter : Obligations.RetPopsTheProgramCounter := by
  refine ⟨rfl, fun s => ?_, fun s h => step_of_atOpcode_no_operand h fun _ => rfl⟩
  refine ⟨_, exec_ret_eq s, rfl, fun hc j _ => ?_, fun hc => ?_, s.adjustSpAfterPop_cur,
    s.adjustSpAfterPop_eq, s.adjustSpAfterPop_out, (keptExcept_adjustSpAfterPop s).setPc _⟩
  · rw [State.setPc_reg, State.adjustSpAfterPop_of_false hc]
  · rw [State.setPc_reg, State.adjustSpAfterPop_reg_sp hc, toNat_byte_add_one]

/-- Settles O48: the PUSH leaves the pointer at 255, so the POP reads the fixed cell; incremented it is
back at 0. -/
theorem popAfterPushReturnsTheValue : Obligations.PopAfterPushReturnsTheValue := by
  intro s t u hpush hp hsp hcur husp hucell hup hucur
  obtain ⟨-, hpushes, -⟩ := pushDecrementsTheStackPointerAndStoresInCell255
  obtain ⟨t', ht', htsp, htcell, -⟩ := hpushes s hp
  obtain rfl : t = t' := next_inj (hpush.symm.trans ht')
  have hsp255 : u.reg 255 = 255 := husp.trans (byte_eq_255_of_toNat_eq_sub_one htsp hsp)
  have hread : u.byteAt (u.reg 255).toNat = s.reg s.cur := by
    rw [if_neg hcur] at htcell
    rw [hsp255]
    exact hucell.trans htcell
  obtain ⟨-, hpops, -⟩ := popReadsTheCellTheStackPointerNames
  obtain ⟨w, hw, hfixed, hadjusted, -⟩ := hpops u hup
  cases hc : u.cfg.popAdjustsSp with
  | false =>
    obtain ⟨hwcur, hwregs⟩ := hfixed hc
    refine ⟨w, hw, hwcur.trans hread, nofun, fun _ => ?_⟩
    exact (hwregs 255 (by simpa using hucur.symm)).trans hsp255
  | true =>
    obtain ⟨hwcur, hwsp⟩ := hadjusted hc hucur
    refine ⟨w, hw, hwcur.trans hread, fun _ => ?_, nofun⟩
    rw [hsp255] at hwsp
    exact BitVec.eq_of_toNat_eq hwsp

/-- Settles O49: the return address stays in the fixed cell, which RET reads with the pointer at 255. -/
theorem retAfterCallReturns : Obligations.RetAfterCallReturns := by
  intro s t hcall hp
  obtain ⟨-, hcalls, -⟩ := callPushesTheReturnAddressAndJumps
  obtain ⟨t', ht', htsp, htcell, -⟩ := hcalls s hp
  obtain rfl : t = t' := next_inj (hcall.symm.trans ht')
  refine ⟨byte_eq_255_of_toNat_eq_sub_one htsp, fun u husp hucell => ?_⟩
  obtain ⟨-, hrets, -⟩ := retPopsTheProgramCounter
  obtain ⟨w, hw, hwpc, -⟩ := hrets u
  have hpc : w.pc = t.byteAt 255 := by
    rw [hwpc, husp]
    exact hucell
  exact ⟨w, hw, hpc ▸ htcell⟩

end Sys2Proof.Machine
end

section
/-! Storing a byte and advancing, and the meanings of LDRI and STRI where a register is numbered `pc + 1`
and at address 255, where none is (45_memory_access.md R170 to R173). -/

namespace Sys2Proof.Machine

/-! ## Storing a byte and advancing -/

/-- Storing a byte and advancing, where there is room: that byte and `pc` are written, nothing else. -/
theorem commit_advance_setByte_of_room {s : State} (a : Nat) (v : Byte) {n : Nat}
    (hp : s.pc.toNat + n ≤ 255) :
    ∃ t, commit s (advance (s.setByte a v) n) = .next t ∧ t.byteAt a = v ∧
      t.pc.toNat = s.pc.toNat + n ∧ t.cur = s.cur ∧ t.eq = s.eq ∧ t.out = s.out ∧
      KeptExcept [] [a] s t :=
  ⟨_, commit_advance_of_room s hp, s.byteAt_setByte_same a v, toNat_byte_of_le hp, rfl, rfl, rfl,
    (keptExcept_setByte s a v).setPc _⟩

/-! ## The register numbered `pc + 1` (decision D23) -/

section Indirect
variable {s : State} {i : Byte}

theorem ofNat_eq_of_toNat_eq {n : Nat} (h : i.toNat = n) : BitVec.ofNat 8 n = i := h ▸ byte_of_toNat i

theorem exec_ldri_of_index (hi : i.toNat = s.pc.toNat + 1) :
    exec .ldri s = commit s (advance (s.setCurrent (s.byteAt (s.reg i).toNat)) 2) := by
  rw [exec_ldri_eq, if_pos (hi ▸ byte_le i), ofNat_eq_of_toNat_eq hi]

theorem exec_stri_of_index (hi : i.toNat = s.pc.toNat + 1) :
    exec .stri s = commit s (advance (s.setByte (s.reg i).toNat s.current) 2) := by
  rw [exec_stri_eq, if_pos (hi ▸ byte_le i), ofNat_eq_of_toNat_eq hi]

/-- At the last address `pc + 1` is the number of no register, and LDRI raises (R172, decision D4). -/
theorem exec_ldri_of_pc_eq_255 (hp : s.pc.toNat = 255) :
    exec .ldri s = .next (s.enterError (.outOfRange 256)) := by
  rw [exec_ldri_eq, if_neg (by omega), hp]

/-- At the last address `pc + 1` is the number of no register, and STRI raises (R173, decision D4). -/
theorem exec_stri_of_pc_eq_255 (hp : s.pc.toNat = 255) :
    exec .stri s = .next (s.enterError (.outOfRange 256)) := by
  rw [exec_stri_eq, if_neg (by omega), hp]

/-- An instruction that uses the register numbered `pc + 1` and advances by 2 raises OutOfRange(256) at
the last two addresses: at 254 by its advance, at 255 because there is no such register. -/
theorem stepRaises_of_indirect_advance_two {ins : Instr} (hstep : step s = exec ins s)
    (hexec : ∀ j : Byte, j.toNat = s.pc.toNat + 1 →
      ∃ u : State, u.pc = s.pc ∧ exec ins s = commit s (advance u 2))
    (hlast : s.pc.toNat = 255 → exec ins s = .next (s.enterError (.outOfRange 256)))
    (hp : 254 ≤ s.pc.toNat) : StepRaises s (.outOfRange 256) := by
  have hpc := byte_le s.pc
  obtain h255 | h254 : s.pc.toNat = 255 ∨ s.pc.toNat = 254 := by omega
  · exact stepRaises_of_enterError (hstep.trans (hlast h255))
  · obtain ⟨u, hu, hcommit⟩ := hexec 255 (by rw [h254]; rfl)
    exact stepRaises_of_advance_to_256 (hstep.trans hcommit) (by rw [hu, h254])

end Indirect

end Sys2Proof.Machine
end

section
/-! The statements of the family 45_memory_access.md, each from the lemmas above. -/

namespace Sys2Proof.Machine

/-- Settles O17: the byte at the operand address is written to the register `cur` names; the last two
addresses leave no room. -/
theorem ldLoadsFromItsOperandAddress : Obligations.LdLoadsFromItsOperandAddress := by
  refine ⟨fun _ => rfl, fun addr s hp => ?_,
    fun _ h hp => step_of_atOpcode_one_operand h (fun _ => rfl) hp,
    fun s h hp => stepRaises_of_one_operand_advance_two h (fun _ => rfl)
      (fun addr => ⟨_, s.setCurrent_pc _, exec_ld_eq addr s⟩) hp⟩
  rw [exec_ld_eq]
  exact commit_advance_setCurrent_of_room _ hp

/-- Settles O18: the current register is stored at the operand address; the last two addresses leave no
room, and the error entry is from the state before the store. -/
theorem stStoresToItsOperandAddress : Obligations.StStoresToItsOperandAddress := by
  refine ⟨fun _ => rfl, fun addr s hp => ?_, fun _ h hp => step_of_atOpcode_st h hp,
    fun s h hp => stepRaises_of_one_operand_advance_two h (fun _ => rfl)
      (fun addr => ⟨_, s.setByte_pc _ _, exec_st_eq addr s⟩) hp⟩
  rw [exec_st_eq]
  exact commit_advance_setByte_of_room _ _ hp

/-- Settles O19: as LD, with the address in the register numbered `pc + 1`; the second byte is not
decoded, so the step is `exec` at every address. -/
theorem ldriLoadsThroughTheRegisterNumberedPcPlusOne :
    Obligations.LdriLoadsThroughTheRegisterNumberedPcPlusOne := by
  have hstep (s : State) (h : AtOpcode s .ldri) : step s = exec .ldri s :=
    step_of_atOpcode_no_operand h fun _ => rfl
  refine ⟨fun _ => rfl, rfl, fun s i hi hp => ?_, hstep,
    fun s h hp => stepRaises_of_indirect_advance_two (hstep s h)
      (fun _ hj => ⟨_, s.setCurrent_pc _, exec_ldri_of_index hj⟩) exec_ldri_of_pc_eq_255 hp⟩
  rw [exec_ldri_of_index hi]
  exact commit_advance_setCurrent_of_room _ hp

/-- Settles O20: as ST, with the address in the register numbered `pc + 1`; the second byte is not
decoded, so the step is `exec` at every address. -/
theorem striStoresThroughTheRegisterNumberedPcPlusOne :
    Obligations.StriStoresThroughTheRegisterNumberedPcPlusOne := by
  have hstep (s : State) (h : AtOpcode s .stri) : step s = exec .stri s :=
    step_of_atOpcode_no_operand h fun _ => rfl
  refine ⟨fun _ => rfl, rfl, fun s i hi hp => ?_, hstep,
    fun s h hp => stepRaises_of_indirect_advance_two (hstep s h)
      (fun _ hj => ⟨_, s.setByte_pc _ _, exec_stri_of_index hj⟩) exec_stri_of_pc_eq_255 hp⟩
  rw [exec_stri_of_index hi]
  exact commit_advance_setByte_of_room _ _ hp

end Sys2Proof.Machine
end

section
/-! What a condition reads (46_compare_branch.md R184), the flag of a comparison (R181), moving `pc` and
nothing else, and the meaning of an instruction that jumps on a condition (R182, R183). -/

namespace Sys2Proof.Machine

/-! ## The condition and the comparison -/

section Condition
variable {s : State}

theorem condEq_of_isTrue (h : s.eq = .isTrue) : condEq s = .ok true := by
  simp only [condEq, h]

theorem condEq_of_isFalse (h : s.eq = .isFalse) : condEq s = .ok false := by
  simp only [condEq, h]

theorem condEq_of_unset_fault (h : s.eq = .unset) (hu : s.cfg.unsetFlag = .fault) :
    condEq s = .error .unsetFlag := by
  simp only [condEq, h, hu]

theorem condEq_of_unset_asFalse (h : s.eq = .unset) (hu : s.cfg.unsetFlag = .asFalse) :
    condEq s = .ok false := by
  simp only [condEq, h, hu]

/-- The flag reads as false when it is false, and when it is unset and the parameter says so (decision
D7). -/
theorem condEq_of_reads_false (h : s.eq = .isFalse ∨ (s.eq = .unset ∧ s.cfg.unsetFlag = .asFalse)) :
    condEq s = .ok false :=
  h.elim condEq_of_isFalse fun ⟨hunset, hu⟩ => condEq_of_unset_asFalse hunset hu

end Condition

theorem compareBytes_of_eq {a b : Byte} (h : a = b) : compareBytes a b = .isTrue := if_pos h

theorem compareBytes_of_ne {a b : Byte} (h : a ≠ b) : compareBytes a b = .isFalse := if_neg h

/-! ## The meanings without a condition -/

/-- JMP's target, the number `pc + 1`, is where an advance by 1 goes (R180, decision D23). -/
theorem exec_jmp_eq (s : State) : exec .jmp s = commit s (advance s 1) := rfl

theorem exec_cmp_eq (r : Byte) (s : State) :
    exec (.cmp r) s = commit s (advance (s.setEq (compareBytes (s.reg s.cur) (s.reg r))) 2) := rfl

/-! ## Moving `pc` and nothing else -/

theorem keptExcept_setPc (s : State) (p : Byte) : KeptExcept [] [] s (s.setPc p) :=
  ⟨fun _ _ => rfl, fun _ _ => rfl, rfl, rfl, rfl⟩

theorem keptExcept_setEq (s : State) (f : EqFlag) : KeptExcept [] [] s (s.setEq f) :=
  ⟨fun _ _ => rfl, fun _ _ => rfl, rfl, rfl, rfl⟩

/-- Advancing, where there is room: `pc` is written, nothing else. -/
theorem commit_advance_only_of_room {s : State} {n : Nat} (hp : s.pc.toNat + n ≤ 255) :
    ∃ t, commit s (advance s n) = .next t ∧ t.pc.toNat = s.pc.toNat + n ∧ t.cur = s.cur ∧
      t.eq = s.eq ∧ t.out = s.out ∧ KeptExcept [] [] s t :=
  ⟨_, commit_advance_of_room s hp, toNat_byte_of_le hp, rfl, rfl, rfl, keptExcept_setPc s _⟩

/-- Writing the flag and advancing, where there is room: `EQ` and `pc` are written, nothing else. -/
theorem commit_advance_setEq_of_room {s : State} (f : EqFlag) {n : Nat} (hp : s.pc.toNat + n ≤ 255) :
    ∃ t, commit s (advance (s.setEq f) n) = .next t ∧ t.eq = f ∧ t.pc.toNat = s.pc.toNat + n ∧
      t.cur = s.cur ∧ t.out = s.out ∧ KeptExcept [] [] s t :=
  ⟨_, commit_advance_of_room s hp, rfl, toNat_byte_of_le hp, rfl, rfl, (keptExcept_setEq s f).setPc _⟩

/-! ## Jumping on a condition (JEQ, JNE) -/

/-- An instruction of two bytes that jumps to its operand when the condition is `taken`, advances when it
is `passed`, and raises what the condition raises: both effects and their frame, its operand in memory,
and where it raises. At 255 the operand is missing whatever the flag is (decision D9). -/
theorem jumps_on_condition {m : Mnemonic} {mk : Byte → Instr} (taken passed : Bool)
    (hm : ∀ bs, decodeOperands m bs = oneOperand mk bs)
    (hjump : ∀ {s}, condEq s = .ok taken → ∀ addr, exec (mk addr) s = .next (s.setPc addr))
    (hpass : ∀ {s}, condEq s = .ok passed → ∀ addr, exec (mk addr) s = commit s (advance s 2))
    (herror : ∀ {s e}, condEq s = .error e → ∀ addr, exec (mk addr) s = .next (s.enterError e)) :
    (∀ (addr : Byte) (s : State), condEq s = .ok taken → ∃ t, exec (mk addr) s = .next t ∧
      t.pc = addr ∧ t.cur = s.cur ∧ t.eq = s.eq ∧ t.out = s.out ∧ KeptExcept [] [] s t) ∧
    (∀ (addr : Byte) (s : State), condEq s = .ok passed → s.pc.toNat + 2 ≤ 255 →
      ∃ t, exec (mk addr) s = .next t ∧ t.pc.toNat = s.pc.toNat + 2 ∧
        t.cur = s.cur ∧ t.eq = s.eq ∧ t.out = s.out ∧ KeptExcept [] [] s t) ∧
    (∀ s : State, AtOpcode s m → s.pc.toNat + 1 ≤ 255 →
      step s = exec (mk (s.byteAt (s.pc.toNat + 1))) s) ∧
    (∀ (s : State) (e : RaisedError), AtOpcode s m → s.pc.toNat + 1 ≤ 255 → condEq s = .error e →
      StepRaises s e) ∧
    (∀ s : State, AtOpcode s m → s.pc.toNat = 254 → condEq s = .ok passed →
      StepRaises s (.outOfRange 256)) ∧
    (∀ s : State, AtOpcode s m → s.pc.toNat = 255 → StepRaises s (.outOfRange 256)) := by
  have hstep (s : State) (h : AtOpcode s m) (hp : s.pc.toNat + 1 ≤ 255) :
      step s = exec (mk (s.byteAt (s.pc.toNat + 1))) s := step_of_atOpcode_one_operand h hm hp
  refine ⟨fun addr s hc => ?_, fun addr s hc hp => ?_, hstep, fun s e h hp hc => ?_,
    fun s h hp hc => ?_, fun s h hp => stepRaises_of_missing_operand h hm hp⟩
  · exact ⟨_, hjump hc addr, rfl, rfl, rfl, rfl, keptExcept_setPc s addr⟩
  · rw [hpass hc]
    exact commit_advance_only_of_room hp
  · exact stepRaises_of_enterError ((hstep s h hp).trans (herror hc _))
  · have hcommit := (hstep s h (by omega)).trans (hpass hc _)
    exact stepRaises_of_advance_to_256 hcommit (by rw [hp])

end Sys2Proof.Machine
end

section
/-! The statements of the family 46_compare_branch.md, each from the lemmas above. -/

namespace Sys2Proof.Machine

/-- Settles O22: the comparison is of the registers, so it gives true or false and never unset; the last
two addresses leave no room, and the error entry is from the state before the flag is written. -/
theorem cmpSetsTheFlagFromTwoRegisters : Obligations.CmpSetsTheFlagFromTwoRegisters := by
  refine ⟨fun _ => rfl, fun r s hp => ?_,
    fun _ h hp => step_of_atOpcode_one_operand h (fun _ => rfl) hp,
    fun s h hp => stepRaises_of_one_operand_advance_two h (fun _ => rfl)
      (fun r => ⟨_, s.setEq_pc _, exec_cmp_eq r s⟩) hp⟩
  obtain ⟨t, ht, hflag, hrest⟩ :=
    commit_advance_setEq_of_room (compareBytes (s.reg s.cur) (s.reg r)) hp
  exact ⟨t, (exec_cmp_eq r s).trans ht, fun heq => hflag.trans (compareBytes_of_eq heq),
    fun hne => hflag.trans (compareBytes_of_ne hne), hrest⟩

/-- Settles O23: the jump is taken on the condition true; only the advance of the other path needs
room. -/
theorem jeqJumpsWhenTheFlagIsTrue : Obligations.JeqJumpsWhenTheFlagIsTrue := by
  obtain ⟨htaken, hpassed, hstep, hcondition, hlast, hmissing⟩ :=
    jumps_on_condition (m := .jeq) true false (fun _ => rfl) exec_jeq_of_cond exec_jeq_of_cond
      exec_jeq_of_error
  exact ⟨fun _ => rfl, fun addr s h => htaken addr s (condEq_of_isTrue h),
    fun addr s h => hpassed addr s (condEq_of_reads_false h), hstep,
    fun s h hp hunset hu => hcondition s _ h hp (condEq_of_unset_fault hunset hu),
    fun s h hp hf => hlast s h hp (condEq_of_reads_false hf), hmissing⟩

/-- Settles O24: as JEQ, with the jump taken on the condition false. -/
theorem jneJumpsWhenTheFlagIsFalse : Obligations.JneJumpsWhenTheFlagIsFalse := by
  obtain ⟨htaken, hpassed, hstep, hcondition, hlast, hmissing⟩ :=
    jumps_on_condition (m := .jne) false true (fun _ => rfl) exec_jne_of_cond exec_jne_of_cond
      exec_jne_of_error
  exact ⟨fun _ => rfl, fun addr s h => htaken addr s (condEq_of_reads_false h),
    fun addr s h => hpassed addr s (condEq_of_isTrue h), hstep,
    fun s h hp hunset hu => hcondition s _ h hp (condEq_of_unset_fault hunset hu),
    fun s h hp ht => hlast s h hp (condEq_of_isTrue ht), hmissing⟩

/-- Settles O21: JMP advances by 1, so it raises only at address 255. -/
theorem jmpMovesToTheAddressAfterItsOpcode : Obligations.JmpMovesToTheAddressAfterItsOpcode := by
  have hstep (s : State) (h : AtOpcode s .jmp) : step s = exec .jmp s :=
    step_of_atOpcode_no_operand h fun _ => rfl
  refine ⟨rfl, fun s hp => commit_advance_only_of_room hp, hstep, fun s h hp => ?_⟩
  exact stepRaises_of_advance_to_256 ((hstep s h).trans (exec_jmp_eq s)) (by rw [hp])

/-- Settles O45: by the value of the flag and, where it is unset, by the parameter. -/
theorem conditionReadsTheFlag : Obligations.ConditionReadsTheFlag := fun _ =>
  ⟨condEq_of_isTrue, condEq_of_isFalse, condEq_of_unset_fault, condEq_of_unset_asFalse⟩

end Sys2Proof.Machine
end

section
/-! Runs of any length: each answers a state, and a run in two parts is the second part from where the
first ends. -/

namespace Sys2Proof.Machine

/-- A run stops at a fault or a refusal only, and no step gives one. -/
theorem run_total (k : Nat) (s : State) : ∃ t, Sys2Proof.core.run k s = .next t := by
  induction k generalizing s with
  | zero => exact ⟨s, run_zero s⟩
  | succ k ih =>
    obtain ⟨u, hu⟩ := step_total s
    obtain ⟨t, ht⟩ := ih u
    exact ⟨t, (run_succ k hu).trans ht⟩

theorem run_add {k : Nat} (n : Nat) {s u : State} (h : Sys2Proof.core.run k s = .next u) :
    Sys2Proof.core.run (k + n) s = Sys2Proof.core.run n u := by
  induction k generalizing s with
  | zero => rw [next_inj h, Nat.zero_add]
  | succ k ih =>
    obtain ⟨v, hv, hrun⟩ := exists_step_of_run_succ h
    calc Sys2Proof.core.run (k + 1 + n) s
      _ = Sys2Proof.core.run (k + n + 1) s := by rw [Nat.add_right_comm]
      _ = Sys2Proof.core.run (k + n) v := run_succ (k + n) hv
      _ = Sys2Proof.core.run n u := ih hrun

end Sys2Proof.Machine
end

section
/-! The statements of the family 60_exceptions.md, each from the lemmas above. -/

namespace Sys2Proof.Machine

/-- Settles O34: by the step's cases, of which each answers a next state. -/
theorem everyStepAnswersANextState : Obligations.EveryStepAnswersANextState := step_total

/-- Settles O36: of the statuses that a step of a running core can give, only the error entry's is
`haltedError`. -/
theorem errorEntryChangesOnlyStatusAndRecord : Obligations.ErrorEntryChangesOnlyStatusAndRecord := by
  intro s t hr h herr
  rcases step_status_of_running hr h with hrun | ⟨hhalt, -⟩ | ⟨-, hentered⟩
  · cases herr.symm.trans hrun
  · cases herr.symm.trans hhalt
  · exact hentered

/-- Settles O53: an error state in the middle of the run would be the state at its end, since a halted
core stays. -/
theorem safeRunsHaveSafeBeginnings : Obligations.SafeRunsHaveSafeBeginnings := by
  rintro k n s ⟨t, ht, hsafe⟩
  obtain ⟨u, hu⟩ := run_total k s
  refine ⟨u, hu, fun herr => hsafe ?_⟩
  have hend : Sys2Proof.core.run n u = .next t := (run_add n hu).symm.trans ht
  have hstay : Sys2Proof.core.run n u = .next u := run_of_isTerminal n (.inr herr)
  rw [next_inj (hend.symm.trans hstay), herr]

/-- Settles O46: by the definitions of the code and the datum, one equation for each kind. -/
theorem errorCodesAndData : Obligations.ErrorCodesAndData :=
  ⟨fun _ => ⟨rfl, rfl⟩, fun _ => ⟨rfl, rfl⟩, fun _ => ⟨rfl, rfl⟩, rfl, rfl⟩

end Sys2Proof.Machine
end
